-- ==== Sys2Proof/Word.lean ====
section
/-! DEFINITION. The widths of the machine: bytes, words, 12-bit addresses, register numbers and key values
(spec/00_scope.md R5, R6). -/

namespace Sys2Proof

/-- `u8`: a general register, a memory byte, a display cell, a timer (R6, R21, R26, R27). -/
abbrev Byte := BitVec 8

/-- `u16`: an instruction word, the index register, the program counter, a call-stack slot (R6, R23, R24, R25). -/
abbrev Word := BitVec 16

/-- `u12`: the address field NNN of an instruction word (R71). -/
abbrev Addr12 := BitVec 12

/-- The number of a general register, a 4-bit field X or Y (R21, R71). -/
abbrev Reg := Fin 16

/-- The value of a key of the hexadecimal keypad (R30). -/
abbrev Key := Fin 16

end Sys2Proof
end

