-- ==== Sys2Proof/Syntax.lean ====
section
/-! DEFINITION. The 34 instructions (spec/30_encoding.md R75, R76, R81), one constructor per row of
spec/opcode_table.json, named as R75 names them. -/

namespace Sys2Proof

/-- An instruction with its operand fields (R71, R74). Register numbers, bytes and 12-bit addresses are bounded
by their types. `N` of DXYN is "an unsigned count 0..15" (R74), so it is a natural number and `Instr.wellFormed`
bounds it. The Y field of `shr` and `shl`, "decoded and ignored" (R119, R121), is kept, so that an instruction
word can be written back from its instruction (log entry 33). -/
inductive Instr where
  /-- 00E0 -/
  | cls
  /-- 00EE -/
  | ret
  /-- 1NNN -/
  | jp (nnn : Addr12)
  /-- 2NNN -/
  | call (nnn : Addr12)
  /-- 3XNN -/
  | seImm (x : Reg) (nn : Byte)
  /-- 4XNN -/
  | sneImm (x : Reg) (nn : Byte)
  /-- 5XY0 -/
  | seReg (x y : Reg)
  /-- 6XNN -/
  | ldImm (x : Reg) (nn : Byte)
  /-- 7XNN -/
  | addImm (x : Reg) (nn : Byte)
  /-- 8XY0 -/
  | ldReg (x y : Reg)
  /-- 8XY1 -/
  | orReg (x y : Reg)
  /-- 8XY2 -/
  | andReg (x y : Reg)
  /-- 8XY3 -/
  | xorReg (x y : Reg)
  /-- 8XY4 -/
  | addReg (x y : Reg)
  /-- 8XY5 -/
  | subReg (x y : Reg)
  /-- 8XY6 -/
  | shr (x y : Reg)
  /-- 8XY7 -/
  | subnReg (x y : Reg)
  /-- 8XYE -/
  | shl (x y : Reg)
  /-- 9XY0 -/
  | sneReg (x y : Reg)
  /-- ANNN -/
  | ldI (nnn : Addr12)
  /-- BNNN -/
  | jpV0 (nnn : Addr12)
  /-- CXNN -/
  | rnd (x : Reg) (nn : Byte)
  /-- DXYN -/
  | drw (x y : Reg) (n : Nat)
  /-- EX9E -/
  | skp (x : Reg)
  /-- EXA1 -/
  | sknp (x : Reg)
  /-- FX07 -/
  | ldFromDT (x : Reg)
  /-- FX0A -/
  | ldKey (x : Reg)
  /-- FX15 -/
  | ldDT (x : Reg)
  /-- FX18 -/
  | ldST (x : Reg)
  /-- FX1E -/
  | addI (x : Reg)
  /-- FX29 -/
  | ldFont (x : Reg)
  /-- FX33 -/
  | bcd (x : Reg)
  /-- FX55 -/
  | store (x : Reg)
  /-- FX65 -/
  | load (x : Reg)
  deriving DecidableEq, Repr

end Sys2Proof
end

