-- ==== Sys2Proof/WellFormed.lean ====
section
/-! DEFINITION. The one check on an instruction that its types do not make: the sprite height of DXYN is a
4-bit count (spec/30_encoding.md R74, spec/44_display.md R137). -/

namespace Sys2Proof

/-- `i` is an instruction the encoding admits: every instruction is, but for a DXYN of a height above 15. -/
def Instr.wellFormed : Instr → Bool
  | .drw _ _ n => n < 16
  | .cls | .ret | .jp _ | .call _ | .seImm _ _ | .sneImm _ _ | .seReg _ _ | .ldImm _ _ | .addImm _ _
  | .ldReg _ _ | .orReg _ _ | .andReg _ _ | .xorReg _ _ | .addReg _ _ | .subReg _ _ | .shr _ _ | .subnReg _ _
  | .shl _ _ | .sneReg _ _ | .ldI _ | .jpV0 _ | .rnd _ _ | .skp _ | .sknp _ | .ldFromDT _ | .ldKey _ | .ldDT _
  | .ldST _ | .addI _ | .ldFont _ | .bcd _ | .store _ | .load _ => true

end Sys2Proof
end

