-- ==== Sys2Proof/Decode.lean ====
section
/-! DEFINITION. Decoding and encoding of instruction words (spec/30_encoding.md R70 to R78). The opcode values
are those of R76 (log entry 9). -/

namespace Sys2Proof

/-! ### The fields of an instruction word (R71) -/

/-- A 4-bit field as a number. -/
def nibble (b : BitVec 4) : Fin 16 := ⟨b.toNat, b.isLt⟩

/-- `op = w[15:12]`. -/
def fieldOp (w : Word) : Fin 16 := nibble (w.extractLsb' 12 4)

/-- `X = w[11:8]`. -/
def fieldX (w : Word) : Reg := nibble (w.extractLsb' 8 4)

/-- `Y = w[7:4]`. -/
def fieldY (w : Word) : Reg := nibble (w.extractLsb' 4 4)

/-- `N = w[3:0]`. -/
def fieldN (w : Word) : Fin 16 := nibble (w.extractLsb' 0 4)

/-- `NN = w[7:0]`. -/
def fieldNN (w : Word) : Byte := w.extractLsb' 0 8

/-- `NNN = w[11:0]`. -/
def fieldNNN (w : Word) : Addr12 := w.extractLsb' 0 12

/-! ### Decoding -/

/-- Why bytes are no instruction. The six families are those of the table in R77; every one of them is
answered by the fault `DecodeFailure` when the word is fetched for execution. -/
inductive Reject where
  /-- Fewer than two bytes. -/
  | truncated
  /-- 0NNN other than 00E0 and 00EE. -/
  | illegal0 (w : Word)
  /-- 5XYN with N not 0. -/
  | illegal5 (w : Word)
  /-- 8XYN with N in 8, 9, A, B, C, D, F. -/
  | illegal8 (w : Word)
  /-- 9XYN with N not 0. -/
  | illegal9 (w : Word)
  /-- EXNN with NN other than 9E and A1. -/
  | illegalE (w : Word)
  /-- FXNN with NN no selector of family F. -/
  | illegalF (w : Word)
  deriving DecidableEq, Repr

/-- Family 8: the low nibble selects (R75). -/
def decode8 (w : Word) : Except Reject Instr :=
  match fieldN w with
  | 0x0 => .ok (.ldReg (fieldX w) (fieldY w))
  | 0x1 => .ok (.orReg (fieldX w) (fieldY w))
  | 0x2 => .ok (.andReg (fieldX w) (fieldY w))
  | 0x3 => .ok (.xorReg (fieldX w) (fieldY w))
  | 0x4 => .ok (.addReg (fieldX w) (fieldY w))
  | 0x5 => .ok (.subReg (fieldX w) (fieldY w))
  | 0x6 => .ok (.shr (fieldX w) (fieldY w))
  | 0x7 => .ok (.subnReg (fieldX w) (fieldY w))
  | 0xE => .ok (.shl (fieldX w) (fieldY w))
  | _ => .error (.illegal8 w)

/-- Family E: the low byte selects (R75). -/
def decodeE (w : Word) : Except Reject Instr :=
  match (fieldNN w).toNat with
  | 0x9E => .ok (.skp (fieldX w))
  | 0xA1 => .ok (.sknp (fieldX w))
  | _ => .error (.illegalE w)

/-- Family F: the low byte selects (R75). -/
def decodeF (w : Word) : Except Reject Instr :=
  match (fieldNN w).toNat with
  | 0x07 => .ok (.ldFromDT (fieldX w))
  | 0x0A => .ok (.ldKey (fieldX w))
  | 0x15 => .ok (.ldDT (fieldX w))
  | 0x18 => .ok (.ldST (fieldX w))
  | 0x1E => .ok (.addI (fieldX w))
  | 0x29 => .ok (.ldFont (fieldX w))
  | 0x33 => .ok (.bcd (fieldX w))
  | 0x55 => .ok (.store (fieldX w))
  | 0x65 => .ok (.load (fieldX w))
  | _ => .error (.illegalF w)

/-- `Decode(w)` of R75: total on the 65536 words, strict on every sub-selector (R78, log entry 10). The last arm
is `op = 0xF`, the only value the others leave. -/
def decodeWord (w : Word) : Except Reject Instr :=
  match fieldOp w with
  | 0x0 => if w = 0x00E0 then .ok .cls else if w = 0x00EE then .ok .ret else .error (.illegal0 w)
  | 0x1 => .ok (.jp (fieldNNN w))
  | 0x2 => .ok (.call (fieldNNN w))
  | 0x3 => .ok (.seImm (fieldX w) (fieldNN w))
  | 0x4 => .ok (.sneImm (fieldX w) (fieldNN w))
  | 0x5 => if fieldN w = 0 then .ok (.seReg (fieldX w) (fieldY w)) else .error (.illegal5 w)
  | 0x6 => .ok (.ldImm (fieldX w) (fieldNN w))
  | 0x7 => .ok (.addImm (fieldX w) (fieldNN w))
  | 0x8 => decode8 w
  | 0x9 => if fieldN w = 0 then .ok (.sneReg (fieldX w) (fieldY w)) else .error (.illegal9 w)
  | 0xA => .ok (.ldI (fieldNNN w))
  | 0xB => .ok (.jpV0 (fieldNNN w))
  | 0xC => .ok (.rnd (fieldX w) (fieldNN w))
  | 0xD => .ok (.drw (fieldX w) (fieldY w) (fieldN w).val)
  | 0xE => decodeE w
  | _ => decodeF w

/-- The word of two bytes, "most-significant byte first" (R55). -/
def wordOfBytes (hi lo : Byte) : Word := hi ++ lo

/-- Decoding from bytes: one instruction is exactly two bytes (R70); the bytes after it are returned. -/
def decode : List Byte → Except Reject (Instr × List Byte)
  | hi :: lo :: rest =>
    match decodeWord (wordOfBytes hi lo) with
    | .ok i => .ok (i, rest)
    | .error r => .error r
  | [] | [_] => .error .truncated

/-! ### Encoding, by the formats of R72 -/

/-- Format `A`: `oooo nnnn nnnn nnnn`. -/
def formatA (op : BitVec 4) (nnn : Addr12) : Word := op ++ nnn

/-- Formats `XI` and `XS`: `oooo xxxx kkkk kkkk`. -/
def formatXI (op : BitVec 4) (x : Reg) (k : Byte) : Word := (op ++ BitVec.ofNat 4 x.val) ++ k

/-- Formats `XY` and `XYN`: `oooo xxxx yyyy ssss`. -/
def formatXY (op : BitVec 4) (x y : Reg) (s : BitVec 4) : Word :=
  (op ++ BitVec.ofNat 4 x.val) ++ (BitVec.ofNat 4 y.val ++ s)

/-- The word of an instruction, by the opcode map of R76. -/
def encode : Instr → Word
  | .cls => 0x00E0
  | .ret => 0x00EE
  | .jp nnn => formatA 0x1 nnn
  | .call nnn => formatA 0x2 nnn
  | .seImm x nn => formatXI 0x3 x nn
  | .sneImm x nn => formatXI 0x4 x nn
  | .seReg x y => formatXY 0x5 x y 0x0
  | .ldImm x nn => formatXI 0x6 x nn
  | .addImm x nn => formatXI 0x7 x nn
  | .ldReg x y => formatXY 0x8 x y 0x0
  | .orReg x y => formatXY 0x8 x y 0x1
  | .andReg x y => formatXY 0x8 x y 0x2
  | .xorReg x y => formatXY 0x8 x y 0x3
  | .addReg x y => formatXY 0x8 x y 0x4
  | .subReg x y => formatXY 0x8 x y 0x5
  | .shr x y => formatXY 0x8 x y 0x6
  | .subnReg x y => formatXY 0x8 x y 0x7
  | .shl x y => formatXY 0x8 x y 0xE
  | .sneReg x y => formatXY 0x9 x y 0x0
  | .ldI nnn => formatA 0xA nnn
  | .jpV0 nnn => formatA 0xB nnn
  | .rnd x nn => formatXI 0xC x nn
  | .drw x y n => formatXY 0xD x y (BitVec.ofNat 4 n)
  | .skp x => formatXI 0xE x 0x9E
  | .sknp x => formatXI 0xE x 0xA1
  | .ldFromDT x => formatXI 0xF x 0x07
  | .ldKey x => formatXI 0xF x 0x0A
  | .ldDT x => formatXI 0xF x 0x15
  | .ldST x => formatXI 0xF x 0x18
  | .addI x => formatXI 0xF x 0x1E
  | .ldFont x => formatXI 0xF x 0x29
  | .bcd x => formatXI 0xF x 0x33
  | .store x => formatXI 0xF x 0x55
  | .load x => formatXI 0xF x 0x65

/-- The `mask` column of R76: which bits of the word are fixed for this instruction. -/
def Instr.mask : Instr → Word
  | .cls | .ret => 0xFFFF
  | .jp _ | .call _ | .seImm _ _ | .sneImm _ _ | .ldImm _ _ | .addImm _ _ | .ldI _ | .jpV0 _ | .rnd _ _
  | .drw _ _ _ => 0xF000
  | .seReg _ _ | .ldReg _ _ | .orReg _ _ | .andReg _ _ | .xorReg _ _ | .addReg _ _ | .subReg _ _ | .shr _ _
  | .subnReg _ _ | .shl _ _ | .sneReg _ _ => 0xF00F
  | .skp _ | .sknp _ | .ldFromDT _ | .ldKey _ | .ldDT _ | .ldST _ | .addI _ | .ldFont _ | .bcd _ | .store _
  | .load _ => 0xF0FF

/-- The `match` column of R76: the value of the fixed bits. No two instructions share one. -/
def Instr.pattern : Instr → Word
  | .cls => 0x00E0
  | .ret => 0x00EE
  | .jp _ => 0x1000
  | .call _ => 0x2000
  | .seImm _ _ => 0x3000
  | .sneImm _ _ => 0x4000
  | .seReg _ _ => 0x5000
  | .ldImm _ _ => 0x6000
  | .addImm _ _ => 0x7000
  | .ldReg _ _ => 0x8000
  | .orReg _ _ => 0x8001
  | .andReg _ _ => 0x8002
  | .xorReg _ _ => 0x8003
  | .addReg _ _ => 0x8004
  | .subReg _ _ => 0x8005
  | .shr _ _ => 0x8006
  | .subnReg _ _ => 0x8007
  | .shl _ _ => 0x800E
  | .sneReg _ _ => 0x9000
  | .ldI _ => 0xA000
  | .jpV0 _ => 0xB000
  | .rnd _ _ => 0xC000
  | .drw _ _ _ => 0xD000
  | .skp _ => 0xE09E
  | .sknp _ => 0xE0A1
  | .ldFromDT _ => 0xF007
  | .ldKey _ => 0xF00A
  | .ldDT _ => 0xF015
  | .ldST _ => 0xF018
  | .addI _ => 0xF01E
  | .ldFont _ => 0xF029
  | .bcd _ => 0xF033
  | .store _ => 0xF055
  | .load _ => 0xF065

/-- The two bytes of a word in memory order, high byte first (R55, R70). -/
def bytesOfWord (w : Word) : List Byte := [w.extractLsb' 8 8, w.extractLsb' 0 8]

/-- The bytes of an instruction as memory holds them. -/
def encodeBytes (i : Instr) : List Byte := bytesOfWord (encode i)

/-- The word whose bits are `w`, numbered as spec/opcode_table.json numbers them, with every bit from `nbits` on 0. -/
def tableWord (nbits w : Nat) : Word := BitVec.ofNat 16 (w % 2 ^ nbits)

/-- The instruction the decoder reads from the bytes of the table's word. -/
def decodeTableWord (nbits w : Nat) : Option Instr :=
  match decode (bytesOfWord (tableWord nbits w)) with
  | .ok (i, _) => some i
  | .error _ => none

end Sys2Proof
end

