-- ==== Sys2Proof/Config.lean ====
section
/-! DEFINITION. What the implementation fixes (spec/00_scope.md R5) and the free values of the environment
(spec/10_state.md R30, R31). -/

namespace Sys2Proof.Config

/-- `MEM_SIZE` (R5). -/
abbrev memSize : Nat := 4096

/-- `PROG_BASE`, the entry point (R5, R173). -/
abbrev progBase : Nat := 0x200

/-- `PROG_MAX`, the greatest image length (R5, R171). -/
abbrev progMax : Nat := 3584

/-- `FONT_BASE` (R5). -/
abbrev fontBase : Nat := 0x050

/-- `FONT_LEN` (R5). -/
abbrev fontLen : Nat := 80

/-- `FB_W` and `FB_H` (R5). -/
abbrev fbW : Nat := 64

abbrev fbH : Nat := 32

/-- The number of display cells, `FB_W * FB_H` (R26). -/
abbrev fbSize : Nat := 2048

/-- The free value of KEY in the `k`-th cycle whose inputs are not listed in `State.inputs`: any of none and
the sixteen keys (R30, D18; log entry 1). It has no body, so nothing can be proved of it. -/
opaque freeKey : Nat → Option Key

/-- The free value of RND in the `k`-th cycle whose inputs are not listed in `State.inputs`: any byte
(R31, D17; log entries 1 and 29). -/
opaque freeRnd : Nat → Byte

end Sys2Proof.Config
end

