-- ==== Sys2Proof/Machine/State.lean ====
section
/-! DEFINITION. The state of the machine (spec/10_state.md R20), as plain data, the reasons a step can stop,
and the state after reset with an empty image (R34). -/

namespace Sys2Proof.Machine

/-- The display buffer, "64x32 grid of per-pixel 8-bit values" (R26): 32 rows of 64 cells, row `y` counted from
the top and cell `x` of a row from the left; `FB[k]` of the spec is cell `x = k mod 64` of row `y = k div 64`. -/
abbrev Frame := Vector (Vector Byte 64) 32

/-- Memory: the bytes that differ from the reset contents, by strictly rising address (`Memory.wf`). -/
abbrev Memory := List Host.Cell

/-- The cause and the recorded `info` of a fault (R150). ImageTooLarge, code 1, is raised by reset, which then
gives no machine (R172): it is `Fault.imageTooLarge`. -/
inductive Cause where
  /-- Code 2: `PC > 4094` at a fetch (R151). -/
  | fetchOutOfRange (pc : Word)
  /-- Code 3: the fetched word is illegal (R152). -/
  | decodeFailure (pc : Word) (w : Word)
  /-- Code 4: a call with 16 calls pending (R153). -/
  | stackOverflow (pc : Word)
  /-- Code 5: a return with none pending (R154). -/
  | stackUnderflow (pc : Word)
  /-- Code 6: the greatest data address of the instruction is above 4095 (R155). -/
  | addressOutOfRange (pc : Word) (address : Nat)
  deriving DecidableEq, Repr

/-- `RUN` (R29). -/
inductive Run where
  | running
  | halted (cause : Cause)
  deriving DecidableEq, Repr

/-- An output event (R32). -/
inductive Event where
  /-- `Draw(FB)`, with a copy of all cells. -/
  | draw (frame : Frame)
  /-- `Beep`. -/
  | beep
  /-- `Fault(cause, info)`. -/
  | fault (cause : Cause)
  deriving DecidableEq, Repr

/-- What the environment supplies in one cycle: the value of KEY (R30) and the random byte (R31). -/
structure Input where
  key : Option Key
  rnd : Byte
  deriving DecidableEq, Repr

/-- The state. The fields down to `run` are those of R20, and nothing else; the last three are the model's own
(log entries 1, 2, 30) and no instruction can tell them apart from absent. -/
structure State where
  /-- `V[0..15]` (R21, R22). -/
  v : Vector Byte 16
  /-- `I` (R23). -/
  i : Word
  /-- `PC` (R24). -/
  pc : Word
  /-- `STACK[0..15]` (R25). -/
  stack : Vector Word 16
  /-- `SP`, 0..16 (R25). -/
  sp : Fin 17
  /-- `FB` (R26). -/
  fb : Frame
  /-- `DT` (R27). -/
  dt : Byte
  /-- `ST` (R27). -/
  st : Byte
  /-- `MEM` (R28). -/
  mem : Memory
  /-- `RUN` (R29). -/
  run : Run
  /-- The model's own: the inputs of the coming cycles that are already known, the next one first. -/
  inputs : List Input
  /-- The model's own: which free input a cycle takes when `inputs` is empty. -/
  inputClock : Nat
  /-- The model's own: the events emitted so far, the newest first (R97). -/
  events : List Event
  deriving DecidableEq, Repr

/-- The one reason for which the host's form of a stop is used: a reset that gives no machine. -/
inductive Fault where
  /-- Code 1, ImageTooLarge: raised by `State.resetWith` for an image longer than 3584 bytes (R156, R172).
  No step raises it. Safe: there is no state of which a claim could be made. -/
  | imageTooLarge (length : Nat)
  deriving DecidableEq, Repr

/-- The reasons for which an instruction has no meaning. -/
inductive Refusal where
  /-- Raised by an arm of `exec` whose instruction is not modelled; no arm raises it. Safe. -/
  | notModelled (mnemonic : String)
  deriving DecidableEq, Repr

/-- The outcome of a step or of an instruction. -/
abbrev Result := Host.Outcome State Fault Refusal

/-- The machine right after reset with an empty image (R34, R170): the glyph table and the zero bytes of memory
are what `Memory.initial` gives an address that is not listed. `I = 0`, the memory fill and the stack slots are
the spec's own decisions D8 and D9 (log entries 6, 7). -/
def State.reset : State where
  v := Vector.replicate 16 0
  i := 0
  pc := 0x200
  stack := Vector.replicate 16 0
  sp := 0
  fb := Vector.replicate 32 (Vector.replicate 64 0)
  dt := 0
  st := 0
  mem := []
  run := .running
  inputs := []
  inputClock := 0
  events := []

end Sys2Proof.Machine
end

