-- ==== Sys2Proof/Machine/Memory.lean ====
section
/-! DEFINITION. Memory as a list of (address, byte) in one canonical form: its reset contents
(spec/10_state.md R33, R34; spec/20_memory.md R51), reading and writing (R53, R57, R60). -/

namespace Sys2Proof.Machine

/-! ### Reset contents -/

/-- Glyphs 0 to 3 of R33. -/
def glyphs0to3 : List Byte :=
  [0xF0, 0x90, 0x90, 0x90, 0xF0] ++ [0x20, 0x60, 0x20, 0x20, 0x70] ++
  [0xF0, 0x10, 0xF0, 0x80, 0xF0] ++ [0xF0, 0x10, 0xF0, 0x10, 0xF0]

/-- Glyphs 4 to 7 of R33. -/
def glyphs4to7 : List Byte :=
  [0x90, 0x90, 0xF0, 0x10, 0x10] ++ [0xF0, 0x80, 0xF0, 0x10, 0xF0] ++
  [0xF0, 0x80, 0xF0, 0x90, 0xF0] ++ [0xF0, 0x10, 0x20, 0x40, 0x40]

/-- Glyphs 8 to B of R33. -/
def glyphs8toB : List Byte :=
  [0xF0, 0x90, 0xF0, 0x90, 0xF0] ++ [0xF0, 0x90, 0xF0, 0x10, 0xF0] ++
  [0xF0, 0x90, 0xF0, 0x90, 0x90] ++ [0xE0, 0x90, 0xE0, 0x90, 0xE0]

/-- Glyphs C to F of R33. -/
def glyphsCtoF : List Byte :=
  [0xF0, 0x80, 0x80, 0x80, 0xF0] ++ [0xE0, 0x90, 0x90, 0x90, 0xE0] ++
  [0xF0, 0x80, 0xF0, 0x80, 0xF0] ++ [0xF0, 0x80, 0xF0, 0x80, 0x80]

/-- `FONT`, the default table of R33 (D16; PRESUMED, log entry 8). -/
def font : List Byte := glyphs0to3 ++ glyphs4to7 ++ glyphs8toB ++ glyphsCtoF

/-- `MEM_FILL` (R5, R34; D9; log entry 7). -/
def memFill : Byte := 0x00

/-- What an address that is not listed reads as: the reset contents with an empty image (R34, R51). -/
def Memory.initial (a : Nat) : Byte :=
  if Config.fontBase ≤ a then font.getD (a - Config.fontBase) memFill else memFill

/-! ### The canonical form -/

/-- Addresses strictly rising, all inside `MEM`, and no entry equal to what its address reads as unlisted. -/
abbrev Memory.wf (m : Memory) : Prop :=
  m.Pairwise (fun c d => c.1 < d.1) ∧ ∀ c ∈ m, c.1 < Config.memSize ∧ c.2 ≠ Memory.initial c.1

/-! ### Reading and writing one byte -/

/-- `MemRead(a, 1)` (R53): the byte at `a`. It is read only at addresses that the instruction's range check has
found inside memory (R58). -/
def Memory.byte : Memory → Nat → Byte
  | [], a => Memory.initial a
  | c :: m, a => if c.1 = a then c.2 else Memory.byte m a

/-- `m` without an entry for `a`. -/
def Memory.without (m : Memory) (a : Nat) : Memory := m.filter fun c => c.1 ≠ a

/-- `m` with an entry put before the first greater address. -/
def Memory.place (a : Nat) (b : Byte) : Memory → Memory
  | [] => [(a, b)]
  | c :: m => if a < c.1 then (a, b) :: c :: m else c :: Memory.place a b m

/-- `MemWrite(a, 1, b)` (R60), keeping the canonical form. No instruction writes at an address above 4095
(R58), and `write` lists none. -/
def Memory.write (m : Memory) (a : Nat) (b : Byte) : Memory :=
  if a < Config.memSize then
    if b = Memory.initial a then m.without a else (m.without a).place a b
  else m

/-! ### Blocks -/

/-- Single-byte writes at `a`, `a + 1`, ... in this order (R57). -/
def Memory.writeBlock (m : Memory) (a : Nat) : List Byte → Memory
  | [] => m
  | b :: bs => (m.write a b).writeBlock (a + 1) bs

/-- `V[k] <- MemRead(a + k, 1)` for `k = 0, ..., n - 1` in this order (R130). -/
def Memory.loadRegs (m : Memory) (a : Nat) : Nat → Vector Byte 16 → Vector Byte 16
  | 0, v => v
  | n + 1, v => (m.loadRegs a n v).setIfInBounds n (m.byte (a + n))

end Sys2Proof.Machine
end

