-- ==== Sys2Proof/Machine/Operands.lean ====
section
/-! DEFINITION. Operand forms: truncation and extension (spec/00_scope.md R8), registers (spec/10_state.md R21),
effective addresses (spec/20_memory.md R59), sprite geometry (spec/44_display.md R137), the inputs (R30, R31). -/

namespace Sys2Proof.Machine

/-- `trunc_8` of a natural number (R8). -/
def trunc8 (n : Nat) : Byte := BitVec.ofNat 8 n

/-- `trunc_16` of a natural number (R8). -/
def trunc16 (n : Nat) : Word := BitVec.ofNat 16 n

/-- `zext_16` of an address field (R74). -/
def zextAddr (nnn : Addr12) : Word := nnn.setWidth 16

/-- `zext_8` of a key value (R144). -/
def zextKey (k : Key) : Byte := trunc8 k.val

/-- `VF`, register 15 (R22). -/
abbrev VF : Reg := 15

/-- `V[r]` (R9, R21). -/
def State.reg (s : State) (r : Reg) : Byte := s.v[r]

/-- `V[0]`, ..., `V[n-1]` in this order: the operand of the block store (R129). -/
def State.regs (s : State) (n : Nat) : List Byte := s.v.toList.take n

/-- The effective address `I + k`, formed in `nat` without truncation (R59, D7). -/
def State.dataAddr (s : State) (k : Nat) : Nat := s.i.toNat + k

/-- The address of glyph `c` (R127); for a byte above 15 the same formula without masking (D13, log entry 17). -/
def glyphAddr (c : Byte) : Nat := Config.fontBase + 5 * c.toNat

/-- The three decimal digits of a byte: hundreds, tens, units (R128). -/
def decimalDigits (b : Byte) : List Byte :=
  [trunc8 (b.toNat / 100), trunc8 (b.toNat / 10 % 10), trunc8 (b.toNat % 10)]

/-! ### Sprite geometry (R137) -/

/-- Column `c` of a sprite row, counted from the left, is bit `7 - c` of its byte (D30, log entry 26). -/
def spriteBit (b : Byte) (c : Nat) : Bool := b.getLsbD (7 - c)

/-- A cell of the display. -/
abbrev Cell := Fin 64 × Fin 32

/-- The cell the pixel at (`x`, `y`) lands on: both coordinates wrap. -/
def wrapCell (x y : Nat) : Cell :=
  (⟨x % 64, Nat.mod_lt x (by decide)⟩, ⟨y % 32, Nat.mod_lt y (by decide)⟩)

/-- The cells of the set pixels of sprite row byte `b` at (`x`, `y`), left to right. -/
def rowCells (b : Byte) (x y : Nat) : List Cell :=
  (List.range 8).filterMap fun c => if spriteBit b c then some (wrapCell (x + c) y) else none

/-- The cells of the set pixels of the sprite of `n` rows whose row `r` is `MEM[a + r]`, at origin
(`x`, `y`), in the order in which R138 visits them. -/
def spriteCells (m : Memory) (a n x y : Nat) : List Cell :=
  (List.range n).flatMap fun r => rowCells (m.byte (a + r)) x (y + r)

/-! ### The inputs of the cycle -/

/-- The value of KEY in this cycle (R30). -/
def State.key (s : State) : Option Key :=
  match s.inputs with
  | inp :: _ => inp.key
  | [] => Config.freeKey s.inputClock

/-- The random byte of this cycle (R31). -/
def State.rnd (s : State) : Byte :=
  match s.inputs with
  | inp :: _ => inp.rnd
  | [] => Config.freeRnd s.inputClock

/-- `pressed(v)` of 45_keypad_timer.md: the whole byte is compared (D14, log entry 18). -/
def State.pressed (s : State) (v : Byte) : Bool :=
  match s.key with
  | some k => k.val == v.toNat
  | none => false

end Sys2Proof.Machine
end

