-- ==== Sys2Proof/Machine/Flags.lean ====
section
/-! DEFINITION. The values the six flag-writing instructions give VF (spec/10_state.md R22). -/

namespace Sys2Proof.Machine

/-- 8XY4: 1 iff the unsigned sum exceeds 255 (R117). -/
def carryFlag (a b : Byte) : Byte := if a.toNat + b.toNat > 255 then 1 else 0

/-- 8XY5 and 8XY7: 1 iff the minuend is not below the subtrahend, "no borrow" (R118, R120). -/
def noBorrowFlag (minuend subtrahend : Byte) : Byte := if minuend.toNat ≥ subtrahend.toNat then 1 else 0

/-- 8XY6: the bit shifted out, `a & 0x01` (R119). -/
def shrFlag (a : Byte) : Byte := a &&& 0x01

/-- 8XYE: the raw masked byte `a & 0x80`, 0 or 128 (R121). -/
def shlFlag (a : Byte) : Byte := a &&& 0x80

/-- DXYN: 255 on a collision, else 0 (R138; `COLLISION_MARK`, R5). -/
def collisionFlag (collided : Bool) : Byte := if collided then 255 else 0

end Sys2Proof.Machine
end

