-- ==== Sys2Proof/Machine/Ops.lean ====
section
/-! DEFINITION. The operations the instructions share: writes to the state, the ways PC moves
(spec/40_cycle.md R93), the call stack (spec/10_state.md R25), the frame controller (spec/44_display.md R136),
taking a fault (spec/60_exceptions.md R159), the data range check (spec/20_memory.md R58), the tick (R162), and
reset with an image (spec/70_reset_and_hazards.md R170). -/

namespace Sys2Proof.Machine

/-! ### Writes -/

/-- `V[r] <- b`. -/
def State.setReg (s : State) (r : Reg) (b : Byte) : State := { s with v := s.v.set r b }

/-- `V[x] <- b`, then `VF <- f`: the flag is written last (R95, D12, log entry 16). -/
def State.setRegFlag (s : State) (x : Reg) (b f : Byte) : State := (s.setReg x b).setReg VF f

/-- `I <- w`. -/
def State.setI (s : State) (w : Word) : State := { s with i := w }

/-- `PC <- w`. -/
def State.setPC (s : State) (w : Word) : State := { s with pc := w }

/-- `DT <- b`. -/
def State.setDT (s : State) (b : Byte) : State := { s with dt := b }

/-- `ST <- b`. -/
def State.setST (s : State) (b : Byte) : State := { s with st := b }

/-- `emit e` (R11). -/
def State.emit (s : State) (e : Event) : State := { s with events := e :: s.events }

/-- Single-byte writes at `I`, `I + 1`, ... -/
def State.storeBlock (s : State) (bs : List Byte) : State :=
  { s with mem := s.mem.writeBlock (s.dataAddr 0) bs }

/-- `V[k] <- MEM[I + k]` for `k = 0, ..., n - 1`. -/
def State.loadBlock (s : State) (n : Nat) : State := { s with v := s.mem.loadRegs (s.dataAddr 0) n s.v }

/-! ### The ways PC moves (R93) -/

/-- Class normal: `PC <- PC + 2`. -/
def State.advance (s : State) : State := s.setPC (s.pc + 2)

/-- Class skip: `PC <- PC + 4` if the condition holds, else `PC + 2`. -/
def State.skipIf (s : State) (c : Bool) : State := s.setPC (s.pc + (if c then 4 else 2))

/-! ### Taking a fault, and the call stack -/

/-- Trap entry is the halt (R159, R96): `RUN <- halted(cause, info)`, one `Fault` event, and nothing else. It is
applied to the state before the instruction's first write. There is no trap return (R160). -/
def State.takeFault (s : State) (c : Cause) : State := { s.emit (.fault c) with run := .halted c }

/-- `STACK[SP] <- w`, `SP <- SP + 1`; none when 16 calls are pending (R25, R102). -/
def State.push? (s : State) (w : Word) : Option State :=
  if h : s.sp.val < 16 then
    some { s with stack := s.stack.set s.sp.val w, sp := ⟨s.sp.val + 1, by omega⟩ }
  else none

/-- `SP <- SP - 1`, yielding `STACK[SP]` and the state; none when no call is pending (R25, R100). -/
def State.pop? (s : State) : Option (Word × State) :=
  if h : 0 < s.sp.val then
    have := s.sp.isLt
    some (s.stack[s.sp.val - 1], { s with sp := ⟨s.sp.val - 1, by omega⟩ })
  else none

/-! ### Data accesses -/

/-- The fault of an instruction that accesses the `n` bytes from `I` on: raised, before any access, when the
greatest address is above 4095 (R58, R155; D6, log entry 14). -/
def State.dataFault? (s : State) (n : Nat) : Option Cause :=
  if 1 ≤ n ∧ s.dataAddr (n - 1) > 4095 then some (.addressOutOfRange s.pc (s.dataAddr (n - 1))) else none

/-- `done` if the `n` bytes from `I` on are in memory, else the fault. -/
def State.withData (s : State) (n : Nat) (done : State) : Result :=
  match s.dataFault? n with
  | some c => .next (s.takeFault c)
  | none => .next done

/-! ### The frame controller (R136) -/

/-- The cell at column `x` of row `y`. -/
def Frame.cell (f : Frame) (c : Cell) : Byte := f[c.2][c.1]

/-- `FB[k]` in the spec's row-major numbering, `k = y * 64 + x` (R26). -/
def Frame.linear (f : Frame) (k : Nat) : Byte := f.cell (wrapCell (k % 64) (k / 64))

/-- Write one cell. -/
def Frame.setCell (f : Frame) (c : Cell) (b : Byte) : Frame := f.set c.2 (f[c.2].set c.1 b)

/-- `Clear`: every cell 0. -/
def Frame.clear : Frame := Vector.replicate 32 (Vector.replicate 64 0)

/-- `Flip(x, y)`: XOR the cell with 255, and say whether it was set. -/
def Frame.flip (f : Frame) (c : Cell) : Frame × Bool := (f.setCell c (f.cell c ^^^ 255), f.cell c == 255)

/-- Flip the cells in turn, and say whether any was set. -/
def Frame.flipAll (f : Frame) : List Cell → Frame × Bool
  | [] => (f, false)
  | c :: cs => (((f.flip c).1.flipAll cs).1, (f.flip c).2 || ((f.flip c).1.flipAll cs).2)

/-- `FB <- f`. -/
def State.setFB (s : State) (f : Frame) : State := { s with fb := f }

/-- `Present`: one `Draw` with a copy of all cells (R136, R140). -/
def State.present (s : State) : State := s.emit (.draw s.fb)

/-! ### The countdown (R162) and the end of a cycle -/

/-- `if DT > 0: DT <- DT - 1`. -/
def State.tickDT (s : State) : State := if s.dt = 0 then s else s.setDT (s.dt - 1)

/-- `if ST > 0: ST <- ST - 1; emit Beep`. -/
def State.tickST (s : State) : State := if s.st = 0 then s else (s.setST (s.st - 1)).emit .beep

/-- The tick (R162). -/
def State.tick (s : State) : State := s.tickDT.tickST

/-- The environment moves on to the inputs of the next cycle (R178; log entry 1). -/
def State.nextInputs (s : State) : State := { s with inputs := s.inputs.tail, inputClock := s.inputClock + 1 }

/-- What follows the instruction in its cycle: the tick, unless the cycle faulted (R91 step 5, R96, R163). -/
def State.endCycle (s : State) : State :=
  match s.run with
  | .running => s.tick.nextInputs
  | .halted _ => s

/-! ### Fetch and reset -/

/-- `MemRead(PC, 2)`, most significant byte first; none when `PC > 4094` (R54, R55). -/
def State.fetch? (s : State) : Option Word :=
  if s.pc.toNat ≤ 4094 then some (s.mem.byte s.pc.toNat ++ s.mem.byte (s.pc.toNat + 1)) else none

/-- The number of a fault cause (R150, D15); ImageTooLarge, 1, is `Fault.code`. -/
def Cause.code : Cause → Nat
  | .fetchOutOfRange _ => 2
  | .decodeFailure _ _ => 3
  | .stackOverflow _ => 4
  | .stackUnderflow _ => 5
  | .addressOutOfRange _ _ => 6

/-- The number of a construction fault (R150). -/
def Fault.code : Fault → Nat
  | .imageTooLarge _ => 1

/-- `Reset(img, L)` (R170): it depends on no earlier state. An image that does not fit gives no machine
(R156, R172; log entry 4). -/
def State.resetWith (img : List Byte) : Result :=
  if img.length > Config.progMax then .fault (.imageTooLarge img.length)
  else .next { State.reset with mem := State.reset.mem.writeBlock Config.progBase img }

end Sys2Proof.Machine
end

