-- ==== Sys2Proof/Machine/Alu.lean ====
section
/-! DEFINITION. Register loads, arithmetic, logic, shifts, random (spec/42_alu.md R110 to R122). Sources are read
before anything is written (spec/40_cycle.md R94). -/

namespace Sys2Proof.Machine

/-- LD Vx, nn, 6XNN (R111). -/
def execLdImm (x : Reg) (nn : Byte) (s : State) : Result := .next (s.setReg x nn).advance

/-- ADD Vx, nn, 7XNN (R112): no flag. -/
def execAddImm (x : Reg) (nn : Byte) (s : State) : Result :=
  .next (s.setReg x (trunc8 ((s.reg x).toNat + nn.toNat))).advance

/-- LD Vx, Vy, 8XY0 (R113). -/
def execLdReg (x y : Reg) (s : State) : Result := .next (s.setReg x (s.reg y)).advance

/-- OR Vx, Vy, 8XY1 (R114): VF is not written (D24, log entry 25). -/
def execOrReg (x y : Reg) (s : State) : Result := .next (s.setReg x (s.reg x ||| s.reg y)).advance

/-- AND Vx, Vy, 8XY2 (R115): VF is not written (D24). -/
def execAndReg (x y : Reg) (s : State) : Result := .next (s.setReg x (s.reg x &&& s.reg y)).advance

/-- XOR Vx, Vy, 8XY3 (R116): VF is not written (D24). -/
def execXorReg (x y : Reg) (s : State) : Result := .next (s.setReg x (s.reg x ^^^ s.reg y)).advance

/-- ADD Vx, Vy, 8XY4 (R117). -/
def execAddReg (x y : Reg) (s : State) : Result :=
  .next (s.setRegFlag x (trunc8 ((s.reg x).toNat + (s.reg y).toNat)) (carryFlag (s.reg x) (s.reg y))).advance

/-- SUB Vx, Vy, 8XY5 (R118): `trunc_8(a - b + 256)`, the sum formed first so that it is a natural number. -/
def execSubReg (x y : Reg) (s : State) : Result :=
  .next (s.setRegFlag x (trunc8 ((s.reg x).toNat + 256 - (s.reg y).toNat))
    (noBorrowFlag (s.reg x) (s.reg y))).advance

/-- SHR Vx, 8XY6 (R119): `V[X]` in place, Y ignored (D11, log entry 15). -/
def execShr (x _y : Reg) (s : State) : Result :=
  .next (s.setRegFlag x (s.reg x >>> 1) (shrFlag (s.reg x))).advance

/-- SUBN Vx, Vy, 8XY7 (R120): the minuend is `V[Y]`, the destination `V[X]`. -/
def execSubnReg (x y : Reg) (s : State) : Result :=
  .next (s.setRegFlag x (trunc8 ((s.reg y).toNat + 256 - (s.reg x).toNat))
    (noBorrowFlag (s.reg y) (s.reg x))).advance

/-- SHL Vx, 8XYE (R121): the flag is the raw masked byte; `V[X]` in place, Y ignored (D11). -/
def execShl (x _y : Reg) (s : State) : Result :=
  .next (s.setRegFlag x (s.reg x <<< 1) (shlFlag (s.reg x))).advance

/-- RND Vx, nn, CXNN (R122): the free random byte of the cycle, masked. -/
def execRnd (x : Reg) (nn : Byte) (s : State) : Result := .next (s.setReg x (s.rnd &&& nn)).advance

end Sys2Proof.Machine
end

