-- ==== Sys2Proof/Machine/Display.lean ====
section
/-! DEFINITION. The display instructions (spec/44_display.md R135, R138). -/

namespace Sys2Proof.Machine

/-- CLS, 00E0 (R135). -/
def execCls (s : State) : Result := .next (s.setFB Frame.clear).present.advance

/-- The display and the collision that DXYN leaves (R138): the coordinates are read from the state before the
instruction, even when X or Y is 15. -/
def State.drawn (s : State) (x y : Reg) (n : Nat) : Frame × Bool :=
  s.fb.flipAll (spriteCells s.mem (s.dataAddr 0) n (s.reg x).toNat (s.reg y).toNat)

/-- DRW Vx, Vy, n, DXYN (R138): the buffer, VF, then exactly one `Draw`, whether or not a cell changed
(R140, D21, log entry 22). -/
def execDrw (x y : Reg) (n : Nat) (s : State) : Result :=
  s.withData n
    ((s.setFB (s.drawn x y n).1).setReg VF (collisionFlag (s.drawn x y n).2)).present.advance

end Sys2Proof.Machine
end

