-- ==== Sys2Proof/Machine/Flow.lean ====
section
/-! DEFINITION. Control transfer (spec/41_flow.md R100 to R107). -/

namespace Sys2Proof.Machine

/-- RET, 00EE (R100). -/
def execRet (s : State) : Result :=
  match s.pop? with
  | none => .next (s.takeFault (.stackUnderflow s.pc))
  | some (site, t) => .next (t.setPC (site + 2))

/-- JP nnn, 1NNN (R101). -/
def execJp (nnn : Addr12) (s : State) : Result := .next (s.setPC (zextAddr nnn))

/-- CALL nnn, 2NNN (R102): the value pushed is the address of the call itself. -/
def execCall (nnn : Addr12) (s : State) : Result :=
  match s.push? s.pc with
  | none => .next (s.takeFault (.stackOverflow s.pc))
  | some t => .next (t.setPC (zextAddr nnn))

/-- SE Vx, nn, 3XNN (R103). -/
def execSeImm (x : Reg) (nn : Byte) (s : State) : Result := .next (s.skipIf (s.reg x == nn))

/-- SNE Vx, nn, 4XNN (R104). -/
def execSneImm (x : Reg) (nn : Byte) (s : State) : Result := .next (s.skipIf (s.reg x != nn))

/-- SE Vx, Vy, 5XY0 (R105). -/
def execSeReg (x y : Reg) (s : State) : Result := .next (s.skipIf (s.reg x == s.reg y))

/-- SNE Vx, Vy, 9XY0 (R106). -/
def execSneReg (x y : Reg) (s : State) : Result := .next (s.skipIf (s.reg x != s.reg y))

/-- JP V0, nnn, BNNN (R107). -/
def execJpV0 (nnn : Addr12) (s : State) : Result :=
  .next (s.setPC (trunc16 (nnn.toNat + (s.reg 0).toNat)))

end Sys2Proof.Machine
end

