-- ==== Sys2Proof/Machine/IndexMemory.lean ====
section
/-! DEFINITION. Index register and memory instructions (spec/43_index_memory.md R125 to R130). -/

namespace Sys2Proof.Machine

/-- LD I, nnn, ANNN (R125). -/
def execLdI (nnn : Addr12) (s : State) : Result := .next (s.setI (zextAddr nnn)).advance

/-- ADD I, Vx, FX1E (R126): no flag (D24, log entry 25). -/
def execAddI (x : Reg) (s : State) : Result :=
  .next (s.setI (trunc16 (s.i.toNat + (s.reg x).toNat))).advance

/-- LD F, Vx, FX29 (R127). -/
def execLdFont (x : Reg) (s : State) : Result := .next (s.setI (trunc16 (glyphAddr (s.reg x)))).advance

/-- LD B, Vx, FX33 (R128). -/
def execBcd (x : Reg) (s : State) : Result :=
  s.withData 3 (s.storeBlock (decimalDigits (s.reg x))).advance

/-- LD [I], Vx, FX55 (R129): `I` is unchanged. -/
def execStore (x : Reg) (s : State) : Result :=
  s.withData (x.val + 1) (s.storeBlock (s.regs (x.val + 1))).advance

/-- LD Vx, [I], FX65 (R130): the registers, then `I <- trunc_16(I + X + 1)` (D33, log entry 36). -/
def execLoad (x : Reg) (s : State) : Result :=
  s.withData (x.val + 1) ((s.loadBlock (x.val + 1)).setI (trunc16 (s.dataAddr (x.val + 1)))).advance

end Sys2Proof.Machine
end

