-- ==== Sys2Proof/Machine/KeypadTimer.lean ====
section
/-! DEFINITION. Keypad and timer instructions (spec/45_keypad_timer.md R141 to R146). The tick of the cycle
follows each of them in `step`. -/

namespace Sys2Proof.Machine

/-- SKP Vx, EX9E (R141). -/
def execSkp (x : Reg) (s : State) : Result := .next (s.skipIf (s.pressed (s.reg x)))

/-- SKNP Vx, EXA1 (R142). -/
def execSknp (x : Reg) (s : State) : Result := .next (s.skipIf (!s.pressed (s.reg x)))

/-- LD Vx, DT, FX07 (R143). -/
def execLdFromDT (x : Reg) (s : State) : Result := .next (s.setReg x s.dt).advance

/-- LD Vx, K, FX0A (R144): with no key pressed nothing is written and PC stays (D20, log entry 21). -/
def execLdKey (x : Reg) (s : State) : Result :=
  .next (match s.key with
    | some k => (s.setReg x (zextKey k)).advance
    | none => s)

/-- LD DT, Vx, FX15 (R145). -/
def execLdDT (x : Reg) (s : State) : Result := .next (s.setDT (s.reg x)).advance

/-- LD ST, Vx, FX18 (R146). -/
def execLdST (x : Reg) (s : State) : Result := .next (s.setST (s.reg x)).advance

end Sys2Proof.Machine
end

