-- ==== Sys2Proof/Machine/Step.lean ====
section
/-! DEFINITION. One cycle of the machine (spec/40_cycle.md R91): fetch, decode, execute, tick. -/

namespace Sys2Proof.Machine

/-- The cycle of R91. A halted machine changes nothing and emits nothing (step 1; R29). A fault of fetch or
decode is taken like one of an instruction (steps 2, 3), and fetch comes before decode (R158). -/
def step (s : State) : Host.Outcome State Fault Refusal :=
  match s.run with
  | .halted _ => .next s
  | .running =>
    match s.fetch? with
    | none => .next (s.takeFault (.fetchOutOfRange s.pc))
    | some w =>
      match decodeWord w with
      | .error _ => .next (s.takeFault (.decodeFailure s.pc w))
      | .ok i =>
        match exec i s with
        | .next t => .next t.endCycle
        | .fault r => .fault r
        | .refused r => .refused r

/-- `s` with the table's word stored big-endian at PC (R55), and running, which the fetch needs (R91 step 1):
an image is loaded from outside the machine, and this stands for the part of it that the next cycle fetches
(log entry 5). -/
def State.withFetchWord (s : State) (nbits w : Nat) : State :=
  { s with mem := s.mem.writeBlock s.pc.toNat (bytesOfWord (tableWord nbits w)), run := .running }

end Sys2Proof.Machine
end

