-- ==== Sys2Proof/Safety.lean ====
section
/-! DEFINITION. The terms claims are made in: a safe cycle, the invariant (spec/10_state.md R37), the parts of the
state an instruction leaves as they were, and the tables of who writes what (R21, R22, R23, R25, R27;
spec/20_memory.md R57). -/

namespace Sys2Proof.Machine

/-- The cycle from `s` completes: it executes an instruction and leaves `t`, with no fault. A halted state is a
fault, never a normal end (spec/40_cycle.md R98). -/
def State.Completes (s t : State) : Prop := s.run = .running ∧ step s = .next t ∧ t.run = .running

/-- The instruction the next cycle executes is `i`: the machine runs, the two bytes at PC are in memory, and they
decode to it (R91). -/
def State.Executes (s : State) (i : Instr) : Prop :=
  s.run = .running ∧ s.pc.toNat + 1 ≤ 4095 ∧
    decode [s.mem.byte s.pc.toNat, s.mem.byte (s.pc.toNat + 1)] = .ok (i, [])

/-- What holds of every state from reset on (R37), memory's canonical form among it; the bound on PC is that of
R24. That `SP` is 0..16 (R37 b) is its type. -/
structure State.Inv (s : State) : Prop where
  memory : s.mem.wf
  cells : ∀ c, s.fb.cell c = 0 ∨ s.fb.cell c = 255
  calls : ∀ k : Fin 16, k.val < s.sp.val → s.stack[k].toNat ≤ 4094
  pc : s.pc.toNat ≤ 0x10FE

/-! ### What stays as it was -/

/-- The parts of the state, but for PC, of which a statement says that they are unchanged. -/
inductive Part where
  | regs
  | index
  | stack
  | display
  | delay
  | sound
  | memory
  | run
  | events
  | inputs
  deriving DecidableEq, Repr

/-- A part of `t` is as in `s`: memory through the read of one byte, the display through the read of one cell. -/
def State.Kept (s t : State) : Part → Prop
  | .regs => ∀ r, t.reg r = s.reg r
  | .index => t.i = s.i
  | .stack => t.stack = s.stack ∧ t.sp = s.sp
  | .display => ∀ c, t.fb.cell c = s.fb.cell c
  | .delay => t.dt = s.dt
  | .sound => t.st = s.st
  | .memory => ∀ a, t.mem.byte a = s.mem.byte a
  | .run => t.run = s.run
  | .events => t.events = s.events
  | .inputs => t.inputs = s.inputs ∧ t.inputClock = s.inputClock

/-- Every part is kept but those listed; PC is spoken of apart. -/
def State.KeptBut (s t : State) (changed : List Part) : Prop := ∀ p, p ∉ changed → s.Kept t p

/-- Every register is kept but those listed. -/
def State.RegsKeptBut (s t : State) (changed : List Reg) : Prop := ∀ r, r ∉ changed → t.reg r = s.reg r

/-- `t` is `s` halted by the fault `c`: RUN and one `Fault` event are written, and nothing else, PC included
(spec/40_cycle.md R96, spec/60_exceptions.md R159). -/
def State.HaltsWith (s t : State) (c : Cause) : Prop :=
  t.run = .halted c ∧ t.events = .fault c :: s.events ∧ t.pc = s.pc ∧ s.KeptBut t [.run, .events]

/-- `s` with other inputs: what the environment alone decides (R30, R31). -/
def State.withInputs (s : State) (inputs : List Input) (clock : Nat) : State :=
  { s with inputs := inputs, inputClock := clock }

/-- Pixel (`c`) is covered by the sprite DXYN draws from `s` (spec/44_display.md R137): some set bit `7 - k` of
the byte of row `r` lands on it, with both coordinates wrapped. -/
def State.Covers (s : State) (x y : Reg) (n : Nat) (c : Cell) : Prop :=
  ∃ r < n, ∃ k < 8, (s.mem.byte (s.i.toNat + r)).getLsbD (7 - k) = true ∧
    c.1.val = ((s.reg x).toNat + k) % 64 ∧ c.2.val = ((s.reg y).toNat + r) % 32

/-! ### Who writes what -/

/-- The registers an instruction may write (the table of R21, with the side effects of R22). -/
def writtenRegs : Instr → List Reg
  | .ldImm x _ | .addImm x _ | .ldReg x _ | .orReg x _ | .andReg x _ | .xorReg x _ | .rnd x _ | .ldFromDT x
  | .ldKey x => [x]
  | .addReg x _ | .subReg x _ | .shr x _ | .subnReg x _ | .shl x _ => [x, VF]
  | .drw _ _ _ => [VF]
  | .load x => (List.finRange 16).filter fun r => r ≤ x
  | .cls | .ret | .jp _ | .call _ | .seImm _ _ | .sneImm _ _ | .seReg _ _ | .sneReg _ _ | .ldI _ | .jpV0 _
  | .skp _ | .sknp _ | .ldDT _ | .ldST _ | .addI _ | .ldFont _ | .bcd _ | .store _ => []

/-- The parts, but for the registers and PC, an instruction may write. A fault writes `run` and emits one event
(spec/60_exceptions.md R150: which instructions may fault). -/
def writtenParts : Instr → List Part
  | .cls => [.display, .events]
  | .drw _ _ _ => [.display, .events, .run]
  | .ret | .call _ => [.stack, .events, .run]
  | .ldI _ | .addI _ | .ldFont _ => [.index]
  | .load _ => [.index, .events, .run]
  | .bcd _ | .store _ => [.memory, .events, .run]
  | .ldDT _ => [.delay]
  | .ldST _ => [.sound]
  | .jp _ | .seImm _ _ | .sneImm _ _ | .seReg _ _ | .sneReg _ _ | .jpV0 _ | .skp _ | .sknp _ | .ldImm _ _
  | .addImm _ _ | .ldReg _ _ | .orReg _ _ | .andReg _ _ | .xorReg _ _ | .addReg _ _ | .subReg _ _ | .shr _ _
  | .subnReg _ _ | .shl _ _ | .rnd _ _ | .ldFromDT _ | .ldKey _ => []

/-- The instructions that sample KEY (R30). -/
def samplesKey : Instr → Bool
  | .skp _ | .sknp _ | .ldKey _ => true
  | .cls | .ret | .jp _ | .call _ | .seImm _ _ | .sneImm _ _ | .seReg _ _ | .ldImm _ _ | .addImm _ _
  | .ldReg _ _ | .orReg _ _ | .andReg _ _ | .xorReg _ _ | .addReg _ _ | .subReg _ _ | .shr _ _ | .subnReg _ _
  | .shl _ _ | .sneReg _ _ | .ldI _ | .jpV0 _ | .rnd _ _ | .drw _ _ _ | .ldFromDT _ | .ldDT _ | .ldST _
  | .addI _ | .ldFont _ | .bcd _ | .store _ | .load _ => false

/-- The instruction that samples RND (R31). -/
def samplesRnd : Instr → Bool
  | .rnd _ _ => true
  | .cls | .ret | .jp _ | .call _ | .seImm _ _ | .sneImm _ _ | .seReg _ _ | .ldImm _ _ | .addImm _ _
  | .ldReg _ _ | .orReg _ _ | .andReg _ _ | .xorReg _ _ | .addReg _ _ | .subReg _ _ | .shr _ _ | .subnReg _ _
  | .shl _ _ | .sneReg _ _ | .ldI _ | .jpV0 _ | .drw _ _ _ | .skp _ | .sknp _ | .ldFromDT _ | .ldKey _
  | .ldDT _ | .ldST _ | .addI _ | .ldFont _ | .bcd _ | .store _ | .load _ => false

end Sys2Proof.Machine
end

