-- ==== Sys2Proof/Certificates/Slice0/Obligations.lean ====
section
/-! DEFINITION. The statements for the provers. Each docstring names the rule of spec/ it formalises; where a clause
rests on a decision the spec marks as its own ([decision: ... D<n>], spec/92_eei_decisions.md) or as derived, the
docstring says so and the basis is 'derived'. -/

open Sys2Proof Sys2Proof.Machine

/-! ### Encoding -/

/-- Decoding the bytes of a well-formed instruction gives it back, with every operand at every value the encoding
admits, and leaves the bytes after it (R70, R72, R76; the opcode values are the spec's D29, log entry 9). -/
def Obligations.EncodeThenDecode : Prop :=
  ∀ (i : Instr) (rest : List Byte), i.wellFormed = true → decode (encodeBytes i ++ rest) = .ok (i, rest)

/-- A word that decodes is the encoding of what it decodes to, so no bit of a word is dropped, and the decoder gives
only well-formed instructions (R71, R75; log entries 9, 33). -/
def Obligations.DecodeThenEncode : Prop :=
  ∀ (w : Word) (i : Instr), decodeWord w = .ok i → encode i = w ∧ i.wellFormed = true

/-- The opcode map: a word has the fixed bits of an instruction's row exactly when it decodes to an instruction of
that row (R76; D29, log entry 9). -/
def Obligations.OpcodeMapDecides : Prop :=
  ∀ (w : Word) (j : Instr), w &&& j.mask = j.pattern ↔ ∃ i, decodeWord w = .ok i ∧ i.pattern = j.pattern

/-- The illegal words are those of the table of R77, family by family (strictness: the spec's D10, log entry 10). -/
def Obligations.IllegalWordsByFamily : Prop :=
  ∀ w : Word, (∃ r, decodeWord w = .error r) ↔
    (w.toNat / 4096 = 0x0 ∧ w ≠ 0x00E0 ∧ w ≠ 0x00EE) ∨
    (w.toNat / 4096 = 0x5 ∧ w.toNat % 16 ≠ 0) ∨
    (w.toNat / 4096 = 0x8 ∧ w.toNat % 16 ∈ [0x8, 0x9, 0xA, 0xB, 0xC, 0xD, 0xF]) ∨
    (w.toNat / 4096 = 0x9 ∧ w.toNat % 16 ≠ 0) ∨
    (w.toNat / 4096 = 0xE ∧ w.toNat % 256 ∉ [0x9E, 0xA1]) ∨
    (w.toNat / 4096 = 0xF ∧ w.toNat % 256 ∉ [0x07, 0x0A, 0x15, 0x18, 0x1E, 0x29, 0x33, 0x55, 0x65])

/-- One word of each format of R72 decodes to the instruction it stands for (D29, log entry 9). -/
def Obligations.SampleWordsDecode : Prop :=
  decodeWord 0x00E0 = .ok .cls ∧ decodeWord 0x2ABC = .ok (.call 0xABC) ∧ decodeWord 0x3A42 = .ok (.seImm 0xA 0x42) ∧
  decodeWord 0x8AB7 = .ok (.subnReg 0xA 0xB) ∧ decodeWord 0xD12A = .ok (.drw 1 2 10) ∧
  decodeWord 0xE1A1 = .ok (.sknp 1) ∧ decodeWord 0xF165 = .ok (.load 1)

/-! ### Reset -/

/-- The state after reset with an empty image, field by field (the table of R34). `I = 0` is the spec's decision D8
(log entry 6), the memory fill and the stack slots its D9 (log entry 7), the glyph bytes its D16 (log entry 8);
the empty event list is the model's own field (log entry 30). -/
def Obligations.ResetState : Prop :=
  (∀ r, State.reset.reg r = 0) ∧ State.reset.i = 0 ∧ State.reset.pc = 0x200 ∧ State.reset.sp = 0 ∧
  (∀ k : Fin 16, State.reset.stack[k] = 0) ∧ (∀ c, State.reset.fb.cell c = 0) ∧
  State.reset.dt = 0 ∧ State.reset.st = 0 ∧ State.reset.run = .running ∧ State.reset.events = [] ∧
  (∀ k, k < 80 → State.reset.mem.byte (0x050 + k) = font.getD k 0) ∧
  (∀ a, a < 0x050 ∨ 0x0A0 ≤ a → State.reset.mem.byte a = 0)

/-- Reset with an image that fits puts it at 0x200, leaves the rest of memory and every other field as reset with
an empty image has them, and gives a state that meets the invariant (R170, R171; D8, D9, D16 as in
`ResetState`). -/
def Obligations.ResetLoadsTheImage : Prop :=
  ∀ img : List Byte, img.length ≤ 3584 →
    ∃ t, State.resetWith img = .next t ∧
      (∀ k (h : k < img.length), t.mem.byte (0x200 + k) = img[k]) ∧
      (∀ a, a < 0x200 ∨ 0x200 + img.length ≤ a → t.mem.byte a = State.reset.mem.byte a) ∧
      t.pc = 0x200 ∧ State.reset.KeptBut t [.memory] ∧ t.Inv

/-- Reset with an image longer than 3584 bytes reports ImageTooLarge with the length and gives no machine (R156,
R172; that it is a stop with no state is log entry 4). -/
def Obligations.ResetRefusesALongImage : Prop :=
  ∀ img : List Byte, 3584 < img.length → State.resetWith img = .fault (.imageTooLarge img.length)

/-! ### The cycle -/

/-- When the two bytes at PC decode to a well-formed instruction, the cycle of a running machine is the meaning of
that instruction followed by the end of the cycle (R91). -/
def Obligations.StepRunsTheDecodedInstruction : Prop :=
  ∀ (s : State) (i : Instr), s.Executes i → i.wellFormed = true →
    ∃ t, exec i s = .next t ∧ step s = .next t.endCycle

/-- The tick (R162): each timer goes down by one unless it is 0, and the sound timer emits one Beep when it goes
down; nothing else of the machine changes (of the inputs, which are no state of the machine, `EachCycleTakesOneInput`
speaks). -/
def Obligations.EndOfCycleTicks : Prop :=
  ∀ t : State, t.run = .running →
    t.endCycle.dt.toNat = t.dt.toNat - 1 ∧ t.endCycle.st.toNat = t.st.toNat - 1 ∧
    t.endCycle.events = (if 0 < t.st.toNat then .beep :: t.events else t.events) ∧
    t.endCycle.pc = t.pc ∧ t.KeptBut t.endCycle [.delay, .sound, .events, .inputs]

/-- A cycle that completes leaves the inputs of the next one, whatever its instruction; a cycle that halts leaves them
as they were (the model's own fields and its own choice, log entry 1; R178: each is sampled at most once per cycle). -/
def Obligations.EachCycleTakesOneInput : Prop :=
  ∀ s t : State, s.run = .running → step s = .next t →
    (t.run = .running → t.inputs = s.inputs.tail ∧ t.inputClock = s.inputClock + 1) ∧
    (∀ c, t.run = .halted c → s.Kept t .inputs)

/-- Fetch beyond 4094 halts with FetchOutOfRange and records PC (R151; at the fetch: the spec's D31, log
entry 27). -/
def Obligations.FetchOutOfRangeHalts : Prop :=
  ∀ s : State, s.run = .running → 4094 < s.pc.toNat →
    ∃ t, step s = .next t ∧ s.HaltsWith t (.fetchOutOfRange s.pc)

/-- An illegal word halts with DecodeFailure and records PC and the word, most significant byte first (R152, R77,
R55; that the fault is precise is the spec's D4, log entry 3). -/
def Obligations.IllegalWordHalts : Prop :=
  ∀ (s : State) (w : Word) (r : Reject), s.run = .running → s.pc.toNat ≤ 4094 →
    w.toNat = (s.mem.byte s.pc.toNat).toNat * 256 + (s.mem.byte (s.pc.toNat + 1)).toNat →
    decodeWord w = .error r →
    ∃ t, step s = .next t ∧ s.HaltsWith t (.decodeFailure s.pc w)

/-- A halted machine changes nothing and emits nothing (R29, R91 step 1; the latch is the spec's D4, log entry 3). -/
def Obligations.HaltedMachineChangesNothing : Prop :=
  ∀ (s : State) (c : Cause), s.run = .halted c → step s = .next s

/-- Every cycle answers a next state: it executes an instruction or halts, and the model stops nowhere (R99; that a
fault is a next state is log entry 3). -/
def Obligations.EveryCycleAnswers : Prop :=
  ∀ s : State, ∃ t, step s = .next t

/-- Faults are precise: a cycle that halts changes RUN and emits one Fault with the same cause, and leaves every
other field as it was, PC and timers included (R96, R159, R163; the spec's D4, log entry 3). -/
def Obligations.FaultsArePrecise : Prop :=
  ∀ (s t : State) (c : Cause), s.run = .running → step s = .next t → t.run = .halted c → s.HaltsWith t c

/-- The complete list of the faults of a cycle and what each records (R150 codes 2 to 6; D4 to D7, D15, log
entries 3, 13, 14, 19). -/
def Obligations.FaultsAreThoseListed : Prop :=
  ∀ (s t : State) (c : Cause), s.run = .running → step s = .next t → t.run = .halted c →
    (4094 < s.pc.toNat ∧ c = .fetchOutOfRange s.pc) ∨
    (s.pc.toNat ≤ 4094 ∧ ∃ w r, s.fetch? = some w ∧ decodeWord w = .error r ∧ c = .decodeFailure s.pc w) ∨
    (∃ nnn, s.Executes (.call nnn) ∧ s.sp.val = 16 ∧ c = .stackOverflow s.pc) ∨
    (s.Executes .ret ∧ s.sp.val = 0 ∧ c = .stackUnderflow s.pc) ∨
    (∃ a, 4095 < a ∧ c = .addressOutOfRange s.pc a ∧
      ((∃ x y n, s.Executes (.drw x y n) ∧ 1 ≤ n ∧ a = s.i.toNat + n - 1) ∨
       (∃ x, s.Executes (.bcd x) ∧ a = s.i.toNat + 2) ∨
       (∃ x, s.Executes (.store x) ∧ a = s.i.toNat + x.val) ∨
       (∃ x, s.Executes (.load x) ∧ a = s.i.toNat + x.val)))

/-- The events of a cycle: exactly one Fault if it halts, else at most one Draw, of the buffer as the cycle leaves it
and emitted by 00E0 and DXYN alone and always, and then at most one Beep (R97, R140; derived in the spec). The newest
event stands first. -/
def Obligations.EventsOfACycle : Prop :=
  ∀ s t : State, s.run = .running → step s = .next t →
    (∃ c, t.run = .halted c ∧ t.events = .fault c :: s.events) ∨
    (t.run = .running ∧ ∃ beeped drawn : List Event, t.events = beeped ++ (drawn ++ s.events) ∧
      (beeped = [] ∨ beeped = [.beep]) ∧ (drawn = [] ∨ drawn = [.draw t.fb]) ∧
      (drawn = [.draw t.fb] ↔ s.Executes .cls ∨ ∃ x y n, s.Executes (.drw x y n)))

/-- A jump to itself with both timers 0 leaves everything as it is and emits nothing; only the environment moves on
(R98, derived there from R101 and R162; the inputs are the model's own fields, log entry 1). -/
def Obligations.JumpToItselfChangesNothing : Prop :=
  ∀ (s : State) (nnn : Addr12), s.Executes (.jp nnn) → s.pc.toNat = nnn.toNat → s.dt = 0 → s.st = 0 →
    ∃ t, step s = .next t ∧ t.pc = s.pc ∧ s.KeptBut t [.inputs]

/-! ### The invariant -/

/-- Every cycle keeps the invariant: memory in its canonical form, display cells 0 or 255, pending call sites
fetchable, PC never above 0x10FE (R37, R24; derived in the spec). -/
def Obligations.StepKeepsTheInvariant : Prop :=
  ∀ s t : State, s.Inv → step s = .next t → t.Inv

/-- The invariant holds after reset (R37). -/
def Obligations.ResetMeetsTheInvariant : Prop := State.reset.Inv

/-! ### Who writes what -/

/-- An instruction changes no register but those the table of R21 and, as a side effect, R22 let it write, whether it
completes or halts (that OR, AND, XOR and FX1E leave VF alone is the spec's D24, log entry 25). -/
def Obligations.RegistersWrittenAreThoseListed : Prop :=
  ∀ (i : Instr) (s t : State), exec i s = .next t → s.RegsKeptBut t (writtenRegs i)

/-- An instruction changes no part of the state but its own: I by ANNN, FX1E, FX29, FX65 (R23); the stack by 2NNN and
00EE (R25); the display by 00E0 and DXYN (R26); DT by FX15, ST by FX18 (R27); memory by FX33 and FX55 (R57); RUN only
by the instructions that may fault (R150); events only by 00E0, DXYN and those that may fault; the inputs by none. -/
def Obligations.PartsWrittenAreThoseListed : Prop :=
  ∀ (i : Instr) (s t : State), exec i s = .next t → s.KeptBut t (.regs :: writtenParts i)

/-- KEY is sampled by EX9E, EXA1 and FX0A alone and RND by CXNN alone: with other inputs an instruction does the same,
as long as the value it samples is the same (R30, R31; the inputs are the model's own fields, log entry 1). -/
def Obligations.InputsMatterOnlyWhereSampled : Prop :=
  ∀ (i : Instr) (s t : State) (inputs : List Input) (clock : Nat),
    (samplesKey i = true → (s.withInputs inputs clock).key = s.key) →
    (samplesRnd i = true → (s.withInputs inputs clock).rnd = s.rnd) →
    exec i s = .next t → exec i (s.withInputs inputs clock) = .next (t.withInputs inputs clock)

/-! ### Control transfer -/

/-- JP nnn (R101). -/
def Obligations.JumpSetsPC : Prop :=
  ∀ (s : State) (nnn : Addr12), ∃ t, exec (.jp nnn) s = .next t ∧
    t.pc.toNat = nnn.toNat ∧ s.KeptBut t []

/-- JP V0, nnn (R107): the sum is not reduced. -/
def Obligations.IndexedJumpAddsV0 : Prop :=
  ∀ (s : State) (nnn : Addr12), ∃ t, exec (.jpV0 nnn) s = .next t ∧
    t.pc.toNat = nnn.toNat + (s.reg 0).toNat ∧ s.KeptBut t []

/-- The four skips on register values (R103 to R106): 4 if the condition holds, else 2, and nothing but PC. -/
def Obligations.RegisterSkipsAreAdditive : Prop :=
  ∀ (s : State) (x y : Reg) (nn : Byte),
    (∃ t, exec (.seImm x nn) s = .next t ∧
      t.pc = s.pc + (if s.reg x = nn then 4 else 2) ∧ s.KeptBut t []) ∧
    (∃ t, exec (.sneImm x nn) s = .next t ∧
      t.pc = s.pc + (if s.reg x = nn then 2 else 4) ∧ s.KeptBut t []) ∧
    (∃ t, exec (.seReg x y) s = .next t ∧
      t.pc = s.pc + (if s.reg x = s.reg y then 4 else 2) ∧ s.KeptBut t []) ∧
    (∃ t, exec (.sneReg x y) s = .next t ∧
      t.pc = s.pc + (if s.reg x = s.reg y then 2 else 4) ∧ s.KeptBut t [])

/-- CALL nnn with fewer than 16 calls pending: the call site is pushed on slot SP, every other slot stays, PC is the
target (R102, its completing part). -/
def Obligations.CallPushesTheCallSite : Prop :=
  ∀ (s : State) (nnn : Addr12) (h : s.sp.val < 16), ∃ t, exec (.call nnn) s = .next t ∧
    t.sp.val = s.sp.val + 1 ∧ t.stack[s.sp.val] = s.pc ∧
    (∀ k : Fin 16, k.val ≠ s.sp.val → t.stack[k] = s.stack[k]) ∧
    t.pc.toNat = nnn.toNat ∧ s.KeptBut t [.stack]

/-- RET with a call pending: the newest slot is popped, every slot keeps its contents, PC is the popped value plus 2
(R100, its completing part). -/
def Obligations.ReturnResumesAfterTheCallSite : Prop :=
  ∀ s : State, 0 < s.sp.val → ∃ t, exec .ret s = .next t ∧
    t.sp.val + 1 = s.sp.val ∧ t.stack = s.stack ∧
    (∀ k : Fin 16, k.val + 1 = s.sp.val → t.pc = s.stack[k] + 2) ∧ s.KeptBut t [.stack]

/-- The 17th pending call and a return with none pending halt, before anything is written (R153, R154; the spec's D5,
log entry 13). -/
def Obligations.StackBoundsHalt : Prop :=
  ∀ (s : State) (nnn : Addr12),
    (s.sp.val = 16 → ∃ t, exec (.call nnn) s = .next t ∧ s.HaltsWith t (.stackOverflow s.pc)) ∧
    (s.sp.val = 0 → ∃ t, exec .ret s = .next t ∧ s.HaltsWith t (.stackUnderflow s.pc))

/-- Call and return round-trip: a return made with the stack as the call left it, whatever the subroutine did to the
rest of the state, resumes at the call site plus 2 and leaves the depth and the older slots as before the call (R100,
R102; the property of CS section 8). -/
def Obligations.CallThenReturn : Prop :=
  ∀ (s t body : State) (nnn : Addr12), s.sp.val < 16 → exec (.call nnn) s = .next t →
    body.stack = t.stack → body.sp = t.sp →
    ∃ u, exec .ret body = .next u ∧ u.pc = s.pc + 2 ∧ u.sp = s.sp ∧
      (∀ k : Fin 16, k.val < s.sp.val → u.stack[k] = s.stack[k]) ∧ body.KeptBut u [.stack]

/-! ### Register loads, arithmetic, logic, shifts, random -/

/-- LD Vx, nn, ADD Vx, nn and LD Vx, Vy (R111, R112, R113): no flag, whatever the sum. -/
def Obligations.LoadsAndAddImmediate : Prop :=
  ∀ (s : State) (x y : Reg) (nn : Byte),
    (∃ t, exec (.ldImm x nn) s = .next t ∧ t.reg x = nn ∧
      t.pc = s.pc + 2 ∧ s.RegsKeptBut t [x] ∧ s.KeptBut t [.regs]) ∧
    (∃ t, exec (.addImm x nn) s = .next t ∧ (t.reg x).toNat = ((s.reg x).toNat + nn.toNat) % 256 ∧
      t.pc = s.pc + 2 ∧ s.RegsKeptBut t [x] ∧ s.KeptBut t [.regs]) ∧
    (∃ t, exec (.ldReg x y) s = .next t ∧ t.reg x = s.reg y ∧
      t.pc = s.pc + 2 ∧ s.RegsKeptBut t [x] ∧ s.KeptBut t [.regs])

/-- OR, AND, XOR (R114, R115, R116): bit by bit, and VF is not written unless it is the destination (the spec's D24,
log entry 25). -/
def Obligations.LogicIsBitwise : Prop :=
  ∀ (s : State) (x y : Reg),
    (∃ t, exec (.orReg x y) s = .next t ∧
      (∀ k < 8, (t.reg x).getLsbD k = ((s.reg x).getLsbD k || (s.reg y).getLsbD k)) ∧
      t.pc = s.pc + 2 ∧ s.RegsKeptBut t [x] ∧ s.KeptBut t [.regs]) ∧
    (∃ t, exec (.andReg x y) s = .next t ∧
      (∀ k < 8, (t.reg x).getLsbD k = ((s.reg x).getLsbD k && (s.reg y).getLsbD k)) ∧
      t.pc = s.pc + 2 ∧ s.RegsKeptBut t [x] ∧ s.KeptBut t [.regs]) ∧
    (∃ t, exec (.xorReg x y) s = .next t ∧
      (∀ k < 8, (t.reg x).getLsbD k = ((s.reg x).getLsbD k ^^ (s.reg y).getLsbD k)) ∧
      t.pc = s.pc + 2 ∧ s.RegsKeptBut t [x] ∧ s.KeptBut t [.regs])

/-- ADD Vx, Vy (R117): VF is the carry, the result is the sum modulo 256; with X = 15 the flag is what remains (R95,
the spec's D12, log entry 16). -/
def Obligations.AddSetsCarry : Prop :=
  ∀ (s : State) (x y : Reg), ∃ t, exec (.addReg x y) s = .next t ∧
    t.reg VF = (if 255 < (s.reg x).toNat + (s.reg y).toNat then 1 else 0) ∧
    (x ≠ VF → (t.reg x).toNat = ((s.reg x).toNat + (s.reg y).toNat) % 256) ∧
    t.pc = s.pc + 2 ∧ s.RegsKeptBut t [x, VF] ∧ s.KeptBut t [.regs]

/-- SUB and SUBN (R118, R120): VF is 1 iff there is no borrow, the result is the difference modulo 256; with X = 15 the
flag is what remains (R95, D12, log entry 16). -/
def Obligations.SubtractSetsNoBorrow : Prop :=
  ∀ (s : State) (x y : Reg),
    (∃ t, exec (.subReg x y) s = .next t ∧
      t.reg VF = (if (s.reg y).toNat ≤ (s.reg x).toNat then 1 else 0) ∧
      (x ≠ VF → ((t.reg x).toNat : Int) = (((s.reg x).toNat : Int) - (s.reg y).toNat) % 256) ∧
      t.pc = s.pc + 2 ∧ s.RegsKeptBut t [x, VF] ∧ s.KeptBut t [.regs]) ∧
    (∃ t, exec (.subnReg x y) s = .next t ∧
      t.reg VF = (if (s.reg x).toNat ≤ (s.reg y).toNat then 1 else 0) ∧
      (x ≠ VF → ((t.reg x).toNat : Int) = (((s.reg y).toNat : Int) - (s.reg x).toNat) % 256) ∧
      t.pc = s.pc + 2 ∧ s.RegsKeptBut t [x, VF] ∧ s.KeptBut t [.regs])

/-- SHR and SHL (R119, R121): the flag is the raw masked byte, 0 or 1 and 0 or 128; V[X] in place and Y ignored are the
spec's D11 (log entry 15), the flag surviving with X = 15 its D12 (log entry 16). -/
def Obligations.ShiftsLeaveTheRawBit : Prop :=
  ∀ (s : State) (x y : Reg),
    (∃ t, exec (.shr x y) s = .next t ∧ (t.reg VF).toNat = (s.reg x).toNat % 2 ∧
      (x ≠ VF → (t.reg x).toNat = (s.reg x).toNat / 2) ∧
      t.pc = s.pc + 2 ∧ s.RegsKeptBut t [x, VF] ∧ s.KeptBut t [.regs]) ∧
    (∃ t, exec (.shl x y) s = .next t ∧
      (t.reg VF).toNat = (if 128 ≤ (s.reg x).toNat then 128 else 0) ∧
      (x ≠ VF → (t.reg x).toNat = 2 * (s.reg x).toNat % 256) ∧
      t.pc = s.pc + 2 ∧ s.RegsKeptBut t [x, VF] ∧ s.KeptBut t [.regs])

/-- RND (R122): the random byte of the cycle, whatever it is, masked; the byte is a free input (the spec's D17, log
entries 1, 29). -/
def Obligations.RandomIsMasked : Prop :=
  ∀ (s : State) (x : Reg) (nn : Byte), ∃ t, exec (.rnd x nn) s = .next t ∧
    t.reg x = s.rnd &&& nn ∧ t.reg x &&& ~~~nn = 0 ∧
    (∀ k r rest, s.inputs = ⟨k, r⟩ :: rest → t.reg x = r &&& nn) ∧
    t.pc = s.pc + 2 ∧ s.RegsKeptBut t [x] ∧ s.KeptBut t [.regs]

/-! ### Index register and memory -/

/-- LD I, nnn, ADD I, Vx and LD F, Vx (R125, R126, R127): the add wraps at 16 bits and sets no flag (D24, log entry 25),
the glyph address is not masked (D13, log entry 17). -/
def Obligations.IndexRegisterWrites : Prop :=
  ∀ (s : State) (x : Reg) (nnn : Addr12),
    (∃ t, exec (.ldI nnn) s = .next t ∧ t.i.toNat = nnn.toNat ∧
      t.pc = s.pc + 2 ∧ s.KeptBut t [.index]) ∧
    (∃ t, exec (.addI x) s = .next t ∧ t.i.toNat = (s.i.toNat + (s.reg x).toNat) % 65536 ∧
      t.pc = s.pc + 2 ∧ s.KeptBut t [.index]) ∧
    (∃ t, exec (.ldFont x) s = .next t ∧ t.i.toNat = 0x050 + 5 * (s.reg x).toNat ∧
      t.pc = s.pc + 2 ∧ s.KeptBut t [.index])

/-- LD B, Vx (R128, its completing part): three decimal digits at I, I + 1, I + 2, which read as hundreds, tens and
units give the register's value; every other byte of memory is as before. -/
def Obligations.BcdStoresTheDigits : Prop :=
  ∀ (s : State) (x : Reg), s.i.toNat + 2 ≤ 4095 → ∃ t, exec (.bcd x) s = .next t ∧
    (∀ a, s.dataAddr 0 = a →
      100 * (t.mem.byte a).toNat + 10 * (t.mem.byte (a + 1)).toNat + (t.mem.byte (a + 2)).toNat
        = (s.reg x).toNat ∧
      (t.mem.byte a).toNat ≤ 2 ∧ (t.mem.byte (a + 1)).toNat ≤ 9 ∧ (t.mem.byte (a + 2)).toNat ≤ 9 ∧
      (∀ b, b < a ∨ a + 3 ≤ b → t.mem.byte b = s.mem.byte b)) ∧
    t.pc = s.pc + 2 ∧ s.KeptBut t [.memory]

/-- LD [I], Vx (R129, its completing part): registers 0 to X go to I to I + X, I is unchanged, every other byte of
memory is as before. -/
def Obligations.BlockStoreCopiesRegisters : Prop :=
  ∀ (s : State) (x : Reg), s.i.toNat + x.val ≤ 4095 → ∃ t, exec (.store x) s = .next t ∧
    (∀ a, s.dataAddr 0 = a →
      (∀ k : Reg, k ≤ x → t.mem.byte (a + k.val) = s.reg k) ∧
      (∀ b, b < a ∨ a + x.val < b → t.mem.byte b = s.mem.byte b)) ∧
    t.pc = s.pc + 2 ∧ s.KeptBut t [.memory]

/-- LD Vx, [I] (R130, its completing part): registers 0 to X from I to I + X, the others as before, I advanced by
X + 1. -/
def Obligations.BlockLoadCopiesMemory : Prop :=
  ∀ (s : State) (x : Reg), s.i.toNat + x.val ≤ 4095 → ∃ t, exec (.load x) s = .next t ∧
    (∀ k : Reg, k ≤ x → t.reg k = s.mem.byte (s.i.toNat + k.val)) ∧
    (∀ k : Reg, x < k → t.reg k = s.reg k) ∧
    t.i.toNat = s.i.toNat + x.val + 1 ∧ t.pc = s.pc + 2 ∧ s.KeptBut t [.regs, .index]

/-- A block store, then a block load with I as before and the memory the store left, whatever became of the registers:
registers 0 to X read back as stored and I is advanced by X + 1 (R129, R130; the scenario of CS section 8). -/
def Obligations.StoreThenLoadRoundTrip : Prop :=
  ∀ (s t later : State) (x : Reg), s.i.toNat + x.val ≤ 4095 → exec (.store x) s = .next t →
    later.mem = t.mem → later.i = t.i →
    ∃ u, exec (.load x) later = .next u ∧ (∀ k : Reg, k ≤ x → u.reg k = s.reg k) ∧
      u.i.toNat = s.i.toNat + x.val + 1

/-- A data access whose greatest address is above 4095 halts before any access, and records PC and that address (R58,
R155; the spec's D6 and D7, log entry 14). -/
def Obligations.DataBeyondMemoryHalts : Prop :=
  ∀ (s : State) (x y : Reg) (n : Nat),
    (4095 < s.i.toNat + 2 →
      ∃ t, exec (.bcd x) s = .next t ∧ s.HaltsWith t (.addressOutOfRange s.pc (s.i.toNat + 2))) ∧
    (4095 < s.i.toNat + x.val →
      (∃ t, exec (.store x) s = .next t ∧ s.HaltsWith t (.addressOutOfRange s.pc (s.i.toNat + x.val))) ∧
      (∃ t, exec (.load x) s = .next t ∧ s.HaltsWith t (.addressOutOfRange s.pc (s.i.toNat + x.val)))) ∧
    (1 ≤ n → n < 16 → 4095 < s.i.toNat + n - 1 →
      ∃ t, exec (.drw x y n) s = .next t ∧ s.HaltsWith t (.addressOutOfRange s.pc (s.i.toNat + n - 1)))

/-- Bytes a block store wrote are what a later fetch at them reads, the byte at the lower address as the high byte,
with nothing in between (R63, R55; derived in the spec). -/
def Obligations.StoredBytesAreFetched : Prop :=
  ∀ (s t : State) (x k : Reg) (next : Word), s.i.toNat + x.val ≤ 4095 → exec (.store x) s = .next t →
    (h : k.val + 1 ≤ x.val) → next.toNat = s.i.toNat + k.val →
    (t.setPC next).fetch? = some (s.reg k ++ s.reg ⟨k.val + 1, by omega⟩)

/-! ### Display -/

/-- CLS (R135): every cell 0, one Draw of the cleared buffer, VF not written. That the Draw is emitted whatever the
buffer held, also when it was already clear, is the spec's decision D21 (R140; log entry 22). -/
def Obligations.ClearPresentsAnEmptyFrame : Prop :=
  ∀ s : State, ∃ t, exec .cls s = .next t ∧
    (∀ c, t.fb.cell c = 0) ∧ t.events = .draw t.fb :: s.events ∧
    t.pc = s.pc + 2 ∧ s.KeptBut t [.display, .events]

/-- DRW (R137, R138, its completing part): the cells the sprite covers, with both coordinates wrapped, are XORed with
255 and the others stay; VF is 255 iff some covered cell was 255, else 0; one Draw of the new buffer. The origin and
the bit order are the spec's D30 (log entry 26); that X or Y = 15 reads the old VF its D12 (log entry 16). -/
def Obligations.DrawXorsTheSprite : Prop :=
  ∀ (s : State) (x y : Reg) (n : Nat), n < 16 → (n = 0 ∨ s.i.toNat + n - 1 ≤ 4095) →
    ∃ t, exec (.drw x y n) s = .next t ∧
      (∀ c, s.Covers x y n c → t.fb.cell c = s.fb.cell c ^^^ 255) ∧
      (∀ c, ¬ s.Covers x y n c → t.fb.cell c = s.fb.cell c) ∧
      ((∃ c, s.Covers x y n c ∧ s.fb.cell c = 255) → t.reg VF = 255) ∧
      ((¬ ∃ c, s.Covers x y n c ∧ s.fb.cell c = 255) → t.reg VF = 0) ∧
      t.events = .draw t.fb :: s.events ∧
      t.pc = s.pc + 2 ∧ s.RegsKeptBut t [VF] ∧ s.KeptBut t [.regs, .display, .events]

/-- Drawing the same sprite twice at the same place restores the buffer, and the second draw reports a collision iff
the first set a pixel, that is iff the sprite covers a cell that was 0 (R138, derived there from Flip; the property of
CS section 8). X and Y other than 15, since the first draw writes VF. -/
def Obligations.DrawTwiceRestoresTheBuffer : Prop :=
  ∀ (s t u : State) (x y : Reg) (n : Nat), n < 16 → (n = 0 ∨ s.i.toNat + n - 1 ≤ 4095) → x ≠ VF → y ≠ VF →
    exec (.drw x y n) s = .next t → exec (.drw x y n) t = .next u →
    u.fb = s.fb ∧
    ((∃ c, s.Covers x y n c ∧ s.fb.cell c = 0) → u.reg VF = 255) ∧
    ((¬ ∃ c, s.Covers x y n c ∧ s.fb.cell c = 0) → u.reg VF = 0)

/-! ### Keypad and timers -/

/-- SKP and SKNP (R141, R142): the whole byte is compared with the key, and no key pressed counts as not equal (the
spec's D14, log entry 18). -/
def Obligations.KeySkipsAreComplementary : Prop :=
  ∀ (s : State) (x : Reg), ∃ t u, exec (.skp x) s = .next t ∧ exec (.sknp x) s = .next u ∧
    ((∃ k, s.key = some k ∧ k.val = (s.reg x).toNat) → t.pc = s.pc + 4 ∧ u.pc = s.pc + 2) ∧
    ((¬ ∃ k, s.key = some k ∧ k.val = (s.reg x).toNat) → t.pc = s.pc + 2 ∧ u.pc = s.pc + 4) ∧
    s.KeptBut t [] ∧ s.KeptBut u []

/-- LD Vx, K (R144): with a key its value is stored and PC advances; with none nothing changes and PC stays. -/
def Obligations.KeyWaitHoldsOrStores : Prop :=
  ∀ (s : State) (x : Reg),
    (∀ k, s.key = some k → ∃ t, exec (.ldKey x) s = .next t ∧ (t.reg x).toNat = k.val ∧
      t.pc = s.pc + 2 ∧ s.RegsKeptBut t [x] ∧ s.KeptBut t [.regs]) ∧
    (s.key = none → exec (.ldKey x) s = .next s)

/-- LD Vx, DT, LD DT, Vx and LD ST, Vx (R143, R145, R146): the value moves as it is; the tick follows in the cycle. -/
def Obligations.TimerMoves : Prop :=
  ∀ (s : State) (x : Reg),
    (∃ t, exec (.ldFromDT x) s = .next t ∧ t.reg x = s.dt ∧
      t.pc = s.pc + 2 ∧ s.RegsKeptBut t [x] ∧ s.KeptBut t [.regs]) ∧
    (∃ t, exec (.ldDT x) s = .next t ∧ t.dt = s.reg x ∧ t.pc = s.pc + 2 ∧ s.KeptBut t [.delay]) ∧
    (∃ t, exec (.ldST x) s = .next t ∧ t.st = s.reg x ∧ t.pc = s.pc + 2 ∧ s.KeptBut t [.sound])

/-- The whole cycle of a waiting FX0A: PC and registers stay, and the timers tick and beep (R144 b, R163; the spec's D3,
log entry 12). -/
def Obligations.WaitingCycleTicks : Prop :=
  ∀ (s : State) (x : Reg), s.Executes (.ldKey x) → s.key = none → ∃ t, step s = .next t ∧
    t.pc = s.pc ∧ t.dt.toNat = s.dt.toNat - 1 ∧ t.st.toNat = s.st.toNat - 1 ∧
    t.events = (if 0 < s.st.toNat then .beep :: s.events else s.events) ∧
    s.KeptBut t [.delay, .sound, .events, .inputs]

/-- The whole cycle of FX18 and of FX15: the tick follows in the same cycle, so a non-zero sound timer beeps at once and
each timer ends one below the register (R145, R146, derived there; the order is the spec's D2, log entry 11). -/
def Obligations.TimerSetThenTicks : Prop :=
  ∀ (s : State) (x : Reg),
    (s.Executes (.ldST x) → ∃ t, step s = .next t ∧ t.st.toNat = (s.reg x).toNat - 1 ∧
      t.events = (if 0 < (s.reg x).toNat then .beep :: s.events else s.events)) ∧
    (s.Executes (.ldDT x) → ∃ t, step s = .next t ∧ t.dt.toNat = (s.reg x).toNat - 1)

/-- Over any run of `m` completing cycles that execute no FX18, the sound timer goes down by `m`, to 0 at the lowest,
and the number of Beeps is exactly the number of decrements: a timer of `v` gives `v` beeps and then silence (R162,
R164; the scenario of CS section 8; the cadence is the spec's D19, log entry 20). -/
def Obligations.SoundTimerBeepsOncePerDecrement : Prop :=
  ∀ (f : Nat → State) (m : Nat),
    (∀ k < m, (f k).Completes (f (k + 1)) ∧ ∀ x, ¬ (f k).Executes (.ldST x)) →
    (f m).st.toNat = (f 0).st.toNat - m ∧
    (f m).events.count .beep = (f 0).events.count .beep + min m (f 0).st.toNat
end

