-- ==== Sys2Proof/Laws/Decode.lean ====
section
/-! SUPPORT. The fields of the words the formats of spec/30_encoding.md R72 build, so that decoding an encoded
instruction never unfolds a bit field, and the fields as numbers. -/

namespace Sys2Proof

@[simp] theorem nibble_val (b : BitVec 4) : (nibble b).val = b.toNat := rfl

theorem nibble_ofNat (r : Fin 16) : nibble (BitVec.ofNat 4 r.val) = r := by
  apply Fin.ext
  have := r.isLt
  simp only [nibble_val, BitVec.toNat_ofNat]
  omega

/-! ### The fields of a word as numbers (R71) -/

theorem fieldOp_val (w : Word) : (fieldOp w).val = w.toNat / 4096 := by
  have := w.isLt
  simp only [fieldOp, nibble_val, BitVec.extractLsb'_toNat, Nat.shiftRight_eq_div_pow]
  omega

theorem fieldX_val (w : Word) : (fieldX w).val = w.toNat / 256 % 16 := by
  simp only [fieldX, nibble_val, BitVec.extractLsb'_toNat, Nat.shiftRight_eq_div_pow]

theorem fieldY_val (w : Word) : (fieldY w).val = w.toNat / 16 % 16 := by
  simp only [fieldY, nibble_val, BitVec.extractLsb'_toNat, Nat.shiftRight_eq_div_pow]

theorem fieldN_val (w : Word) : (fieldN w).val = w.toNat % 16 := by
  simp only [fieldN, nibble_val, BitVec.extractLsb'_toNat, Nat.shiftRight_eq_div_pow]
  omega

theorem fieldNN_toNat (w : Word) : (fieldNN w).toNat = w.toNat % 256 := by
  simp only [fieldNN, BitVec.extractLsb'_toNat, Nat.shiftRight_eq_div_pow]
  omega

theorem fieldNNN_toNat (w : Word) : (fieldNNN w).toNat = w.toNat % 4096 := by
  simp only [fieldNNN, BitVec.extractLsb'_toNat, Nat.shiftRight_eq_div_pow]
  omega

/-! ### The formats as numbers (R72) -/

theorem append_toNat {m n : Nat} (a : BitVec m) (b : BitVec n) : (a ++ b).toNat = a.toNat * 2 ^ n + b.toNat := by
  rw [BitVec.toNat_append, ← Nat.shiftLeft_add_eq_or_of_lt b.isLt, Nat.shiftLeft_eq]

theorem formatA_toNat (op : BitVec 4) (nnn : Addr12) : (formatA op nnn).toNat = op.toNat * 4096 + nnn.toNat :=
  append_toNat op nnn

theorem formatXI_toNat (op : BitVec 4) (x : Reg) (k : Byte) :
    (formatXI op x k).toNat = op.toNat * 4096 + x.val * 256 + k.toNat := by
  have := x.isLt
  unfold formatXI
  simp only [append_toNat, BitVec.toNat_ofNat]
  omega

theorem formatXY_toNat (op : BitVec 4) (x y : Reg) (s : BitVec 4) :
    (formatXY op x y s).toNat = op.toNat * 4096 + x.val * 256 + y.val * 16 + s.toNat := by
  have := x.isLt
  have := y.isLt
  unfold formatXY
  simp only [append_toNat, BitVec.toNat_ofNat]
  omega

/-! ### The fields of the formats -/

section
variable (op s : BitVec 4) (nnn : Addr12) (x y : Reg) (k : Byte)

@[simp] theorem fieldOp_formatA : fieldOp (formatA op nnn) = nibble op := by
  apply Fin.ext
  rw [fieldOp_val, formatA_toNat, nibble_val]
  omega

@[simp] theorem fieldNNN_formatA : fieldNNN (formatA op nnn) = nnn := by
  apply BitVec.eq_of_toNat_eq
  rw [fieldNNN_toNat, formatA_toNat]
  omega

@[simp] theorem fieldOp_formatXI : fieldOp (formatXI op x k) = nibble op := by
  apply Fin.ext
  rw [fieldOp_val, formatXI_toNat, nibble_val]
  omega

@[simp] theorem fieldX_formatXI : fieldX (formatXI op x k) = x := by
  apply Fin.ext
  rw [fieldX_val, formatXI_toNat]
  omega

@[simp] theorem fieldNN_formatXI : fieldNN (formatXI op x k) = k := by
  apply BitVec.eq_of_toNat_eq
  rw [fieldNN_toNat, formatXI_toNat]
  omega

@[simp] theorem fieldOp_formatXY : fieldOp (formatXY op x y s) = nibble op := by
  apply Fin.ext
  rw [fieldOp_val, formatXY_toNat, nibble_val]
  omega

@[simp] theorem fieldX_formatXY : fieldX (formatXY op x y s) = x := by
  apply Fin.ext
  rw [fieldX_val, formatXY_toNat]
  omega

@[simp] theorem fieldY_formatXY : fieldY (formatXY op x y s) = y := by
  apply Fin.ext
  rw [fieldY_val, formatXY_toNat]
  omega

@[simp] theorem fieldN_formatXY : fieldN (formatXY op x y s) = nibble s := by
  apply Fin.ext
  rw [fieldN_val, formatXY_toNat, nibble_val]
  omega

end

/-! ### Bytes in memory order (R55) -/

theorem wordOfBytes_bytesOfWord (w : Word) : ∃ hi lo, bytesOfWord w = [hi, lo] ∧ wordOfBytes hi lo = w := by
  refine ⟨_, _, rfl, BitVec.eq_of_toNat_eq ?_⟩
  have := w.isLt
  unfold wordOfBytes
  simp only [append_toNat, BitVec.extractLsb'_toNat, Nat.shiftRight_eq_div_pow]
  omega

end Sys2Proof
end

