-- ==== Sys2Proof/Laws/Display.lean ====
section
/-! SUPPORT. The frame controller: single cells, a sequence of flips, and that the pixels of one sprite land on
distinct cells (spec/44_display.md R136, R137). -/

namespace Sys2Proof.Machine

/-! ### Cells -/

@[simp] theorem Frame.cell_setCell (f : Frame) (c d : Cell) (b : Byte) :
    (f.setCell c b).cell d = if d = c then b else f.cell d := by
  obtain ⟨x, y⟩ := c
  obtain ⟨x', y'⟩ := d
  simp only [Frame.cell, Frame.setCell, Fin.getElem_fin, Vector.getElem_set, Prod.mk.injEq, Fin.ext_iff]
  by_cases hy : y.val = y'.val
  · have : y = y' := Fin.ext hy
    subst this
    by_cases hx : x.val = x'.val
    · simp [hx]
    · have : ¬ x'.val = x.val := fun h => hx h.symm
      simp [hx, this]
  · have : ¬ y'.val = y.val := fun h => hy h.symm
    simp [hy, this]

@[simp] theorem Frame.cell_clear (c : Cell) : Frame.clear.cell c = 0 := by
  simp [Frame.cell, Frame.clear]

/-- Two frames are equal when all their cells are. -/
theorem Frame.ext_cell {f g : Frame} (h : ∀ c, f.cell c = g.cell c) : f = g := by
  apply Vector.ext
  intro y hy
  apply Vector.ext
  intro x hx
  exact h (⟨x, hx⟩, ⟨y, hy⟩)

theorem Frame.cell_flip (f : Frame) (c d : Cell) :
    (f.flip c).1.cell d = if d = c then f.cell c ^^^ 255 else f.cell d := by
  simp [Frame.flip]

/-! ### A sequence of flips of distinct cells -/

theorem Frame.cell_flipAll {cs : List Cell} (hn : cs.Nodup) (f : Frame) (d : Cell) :
    (f.flipAll cs).1.cell d = if d ∈ cs then f.cell d ^^^ 255 else f.cell d := by
  induction cs generalizing f with
  | nil => simp [Frame.flipAll]
  | cons c cs ih =>
    obtain ⟨hc, hn⟩ := List.nodup_cons.mp hn
    simp only [Frame.flipAll, ih hn, Frame.cell_flip, List.mem_cons]
    by_cases hd : d = c
    · subst hd; simp [hc]
    · simp [hd]

theorem Frame.flipAll_hit {cs : List Cell} (hn : cs.Nodup) (f : Frame) :
    (f.flipAll cs).2 = true ↔ ∃ c ∈ cs, f.cell c = 255 := by
  induction cs generalizing f with
  | nil => simp [Frame.flipAll]
  | cons c cs ih =>
    obtain ⟨hc, hn⟩ := List.nodup_cons.mp hn
    have same : ∀ d ∈ cs, (f.flip c).1.cell d = f.cell d := fun d hd => by
      rw [Frame.cell_flip, if_neg]
      rintro rfl
      exact hc hd
    have step : (∃ d ∈ cs, (f.flip c).1.cell d = 255) ↔ ∃ d ∈ cs, f.cell d = 255 :=
      ⟨fun ⟨d, hd, h⟩ => ⟨d, hd, same d hd ▸ h⟩, fun ⟨d, hd, h⟩ => ⟨d, hd, (same d hd).trans h⟩⟩
    have first : (f.flip c).2 = true ↔ f.cell c = 255 := by simp [Frame.flip]
    simp only [Frame.flipAll, Bool.or_eq_true, first, ih hn, step, List.mem_cons]
    constructor
    · rintro (h | ⟨d, hd, h⟩)
      · exact ⟨c, .inl rfl, h⟩
      · exact ⟨d, .inr hd, h⟩
    · rintro ⟨d, rfl | hd, h⟩
      · exact .inl h
      · exact .inr ⟨d, hd, h⟩

/-- Flips keep every cell at 0 or 255 (R37 a). -/
theorem Frame.flipAll_legal (cs : List Cell) {f : Frame} (h : ∀ d, f.cell d = 0 ∨ f.cell d = 255) :
    ∀ d, (f.flipAll cs).1.cell d = 0 ∨ (f.flipAll cs).1.cell d = 255 := by
  induction cs generalizing f with
  | nil => exact h
  | cons c cs ih =>
    refine ih fun d => ?_
    rw [Frame.cell_flip]
    split
    · rcases h c with h | h <;> simp [h]
    · exact h d

/-! ### Sprite geometry -/

theorem wrapCell_eq {x y : Nat} {c : Cell} : wrapCell x y = c ↔ c.1.val = x % 64 ∧ c.2.val = y % 32 := by
  obtain ⟨a, b⟩ := c
  simp [wrapCell, Prod.ext_iff, Fin.ext_iff, eq_comm]

/-- The cells a sprite covers (R137): row `r`, column `k`. -/
theorem mem_spriteCells {m : Memory} {a n x y : Nat} {c : Cell} :
    c ∈ spriteCells m a n x y ↔
      ∃ r < n, ∃ k < 8, (m.byte (a + r)).getLsbD (7 - k) = true ∧
        c.1.val = (x + k) % 64 ∧ c.2.val = (y + r) % 32 := by
  simp only [spriteCells, rowCells, List.mem_flatMap, List.mem_range, List.mem_filterMap]
  constructor
  · rintro ⟨r, hr, k, hk, h⟩
    split at h
    · rename_i hb
      exact ⟨r, hr, k, hk, hb, wrapCell_eq.mp (Option.some.inj h)⟩
    · cases h
  · rintro ⟨r, hr, k, hk, hb, hc⟩
    exact ⟨r, hr, k, hk, by simp [spriteBit, hb, wrapCell_eq.mpr hc]⟩

theorem rowCells_nodup (b : Byte) (x y : Nat) : (rowCells b x y).Nodup := by
  refine List.pairwise_filterMap.mpr (List.nodup_range.imp_of_mem fun {k l} hk hl hkl c hc d hd => ?_)
  have hk := List.mem_range.mp hk
  have hl := List.mem_range.mp hl
  rintro rfl
  split at hc <;> split at hd <;> simp_all only [Option.some.injEq, reduceCtorEq]
  have h1 := (wrapCell_eq.mp hc).1
  have h2 := (wrapCell_eq.mp hd).1
  omega

theorem rowCells_row {b : Byte} {x y : Nat} {c : Cell} (h : c ∈ rowCells b x y) : c.2.val = y % 32 := by
  obtain ⟨k, -, h⟩ := List.mem_filterMap.mp h
  split at h
  · exact (wrapCell_eq.mp (Option.some.inj h)).2
  · cases h

/-- No cell is flipped twice by one DXYN, "8 <= 64 and 15 <= 32" (R137). -/
theorem spriteCells_nodup (m : Memory) (a n x y : Nat) (hn : n ≤ 32) : (spriteCells m a n x y).Nodup := by
  refine List.nodup_flatMap.mpr ⟨fun r _ => rowCells_nodup _ _ _, ?_⟩
  refine List.nodup_range.imp_of_mem fun {r q} hr hq hrq => ?_
  have hr := List.mem_range.mp hr
  have hq := List.mem_range.mp hq
  intro c hc hd
  have h1 := rowCells_row hc
  have h2 := rowCells_row hd
  omega

end Sys2Proof.Machine
end

