-- ==== Sys2Proof/Laws/Memory.lean ====
section
/-! SUPPORT. Memory: read after write, and that every operation keeps the canonical form. -/

namespace Sys2Proof.Machine.Memory

/-! ### Read after write -/

@[simp] theorem byte_nil (a : Nat) : byte [] a = initial a := rfl

theorem byte_without (m : Memory) (a k : Nat) :
    (m.without a).byte k = if k = a then initial a else m.byte k := by
  induction m with
  | nil => by_cases h : k = a <;> simp [without, h]
  | cons c m ih =>
    unfold without at ih ⊢
    by_cases hc : c.1 = a
    · by_cases hk : k = a
      · simpa [byte, hc, hk] using ih
      · have : ¬ a = k := fun h => hk h.symm
        simpa [byte, hc, hk, this] using ih
    · by_cases hk : c.1 = k
      · have : ¬ k = a := fun h => hc (hk.trans h)
        simp [byte, hk, this]
      · simpa [byte, hc, hk] using ih

theorem byte_place (m : Memory) (a k : Nat) (b : Byte) (hm : ∀ c ∈ m, c.1 ≠ a) :
    (place a b m).byte k = if k = a then b else m.byte k := by
  induction m with
  | nil =>
    by_cases h : k = a
    · simp [place, byte, h]
    · have : ¬ a = k := fun h' => h h'.symm
      simp [place, byte, h, this]
  | cons c m ih =>
    have hc : c.1 ≠ a := hm c (by simp)
    have ih := ih fun d hd => hm d (by simp [hd])
    by_cases hlt : a < c.1
    · by_cases hk : k = a
      · simp [place, byte, hlt, hk]
      · have : ¬ a = k := fun h => hk h.symm
        simp [place, byte, hlt, hk, this]
    · by_cases hk : c.1 = k
      · subst hk
        simp [place, byte, hlt, hc]
      · simpa [place, byte, hlt, hk] using ih

theorem without_ne (m : Memory) (a : Nat) : ∀ c ∈ m.without a, c.1 ≠ a := by
  intro c hc
  simpa using (List.mem_filter.mp hc).2

/-- A read after a write gives the byte written at its address and the old byte elsewhere (R53, R60). -/
theorem byte_write (m : Memory) (a k : Nat) (b : Byte) (ha : a < Config.memSize) :
    (m.write a b).byte k = if k = a then b else m.byte k := by
  unfold write
  rw [if_pos ha]
  by_cases hb : b = initial a
  · rw [if_pos hb, byte_without, hb]
  · rw [if_neg hb, byte_place _ _ _ _ (without_ne m a)]
    by_cases hk : k = a
    · simp [hk]
    · simp [hk, byte_without]

/-- Reading after the single-byte writes of a block that lies in memory. -/
theorem byte_writeBlock (bs : List Byte) (m : Memory) (a k : Nat) (h : a + bs.length ≤ Config.memSize) :
    (m.writeBlock a bs).byte k = if a ≤ k ∧ k < a + bs.length then bs.getD (k - a) 0 else m.byte k := by
  induction bs generalizing m a with
  | nil =>
    have : ¬ (a ≤ k ∧ k < a + ([] : List Byte).length) := by simp
    rw [if_neg this, writeBlock]
  | cons b bs ih =>
    have hl : (b :: bs).length = bs.length + 1 := rfl
    rw [hl] at h ⊢
    rw [writeBlock, ih _ _ (by omega), byte_write _ _ _ _ (by omega)]
    by_cases h1 : k = a
    · subst h1
      rw [if_neg (by omega), if_pos rfl, if_pos (by omega)]
      simp
    · by_cases h2 : a ≤ k ∧ k < a + (bs.length + 1)
      · rw [if_pos (by omega), if_pos h2]
        obtain ⟨d, hd⟩ : ∃ d, k - a = d + 1 := ⟨k - a - 1, by omega⟩
        have : k - (a + 1) = d := by omega
        simp [hd, this]
      · rw [if_neg (by omega), if_neg h2, if_neg h1]

/-! ### The canonical form -/

theorem without_wf {m : Memory} (a : Nat) (h : m.wf) : (m.without a).wf :=
  ⟨h.1.filter _, fun c hc => h.2 c (List.mem_filter.mp hc).1⟩

theorem mem_place {m : Memory} {a : Nat} {b : Byte} {c : Host.Cell} (hc : c ∈ place a b m) :
    c = (a, b) ∨ c ∈ m := by
  induction m with
  | nil => simpa [place] using hc
  | cons d m ih =>
    by_cases hlt : a < d.1
    · simpa [place, hlt] using hc
    · simp only [place, hlt, if_false, List.mem_cons] at hc
      rcases hc with rfl | hc
      · simp
      · rcases ih hc with h | h <;> simp [h]

theorem place_sorted {m : Memory} {a : Nat} {b : Byte} (hs : m.Pairwise fun c d => c.1 < d.1)
    (hm : ∀ c ∈ m, c.1 ≠ a) : (place a b m).Pairwise fun c d => c.1 < d.1 := by
  induction m with
  | nil => simp [place]
  | cons d m ih =>
    obtain ⟨h1, h2⟩ := List.pairwise_cons.mp hs
    have ih := ih h2 fun c hc => hm c (by simp [hc])
    by_cases hlt : a < d.1
    · simp only [place, hlt, if_true]
      refine List.pairwise_cons.mpr ⟨fun c hc => ?_, hs⟩
      rcases List.mem_cons.mp hc with rfl | hc
      · exact hlt
      · exact Nat.lt_trans hlt (h1 c hc)
    · simp only [place, hlt, if_false]
      refine List.pairwise_cons.mpr ⟨fun c hc => ?_, ih⟩
      rcases mem_place hc with rfl | hc
      · have := hm d (by simp)
        show d.1 < a
        omega
      · exact h1 c hc

/-- A write keeps the canonical form. -/
theorem write_wf {m : Memory} (a : Nat) (b : Byte) (h : m.wf) : (m.write a b).wf := by
  unfold write
  split
  · rename_i ha
    split
    · exact without_wf a h
    · rename_i hb
      have hw := without_wf a h
      refine ⟨place_sorted hw.1 (without_ne m a), fun c hc => ?_⟩
      rcases mem_place hc with rfl | hc
      · exact ⟨ha, hb⟩
      · exact hw.2 c hc
  · exact h

/-- A block of writes keeps the canonical form. -/
theorem writeBlock_wf (bs : List Byte) {m : Memory} (a : Nat) (h : m.wf) : (m.writeBlock a bs).wf := by
  induction bs generalizing m a with
  | nil => exact h
  | cons b bs ih => exact ih (a + 1) (write_wf a b h)

/-- Memory at reset is canonical. -/
theorem reset_wf : State.reset.mem.wf := ⟨List.Pairwise.nil, fun _ hc => absurd hc (List.not_mem_nil)⟩

/-- In canonical form the read of every byte decides the list. -/
theorem wf_ext {m n : Memory} (hm : m.wf) (hn : n.wf) (h : ∀ a, m.byte a = n.byte a) : m = n := by
  have absent (l : Memory) (k : Nat) (hk : ∀ e ∈ l, k < e.1) : l.byte k = initial k := by
    induction l with
    | nil => rfl
    | cons e l ih =>
      have : e.1 ≠ k := by have := hk e (by simp); omega
      simp [byte, this, ih fun f hf => hk f (by simp [hf])]
  have tail {e : Host.Cell} {l : Memory} (hw : wf (e :: l)) : wf l :=
    ⟨(List.pairwise_cons.mp hw.1).2, fun f hf => hw.2 f (by simp [hf])⟩
  induction m generalizing n with
  | nil =>
    cases n with
    | nil => rfl
    | cons d n =>
      have := h d.1
      simp [byte] at this
      exact absurd this.symm (hn.2 d (by simp)).2
  | cons c m ih =>
    have hc1 := (List.pairwise_cons.mp hm.1).1
    cases n with
    | nil =>
      have := h c.1
      simp [byte] at this
      exact absurd this (hm.2 c (by simp)).2
    | cons d n =>
      have hd1 := (List.pairwise_cons.mp hn.1).1
      have key : c.1 = d.1 := by
        rcases Nat.lt_trichotomy c.1 d.1 with hlt | heq | hgt
        · have h1 := h c.1
          rw [absent (d :: n) c.1 (by
            intro e he
            rcases List.mem_cons.mp he with rfl | he
            · exact hlt
            · exact Nat.lt_trans hlt (hd1 e he))] at h1
          simp [byte] at h1
          exact absurd h1 (hm.2 c (by simp)).2
        · exact heq
        · have h1 := h d.1
          rw [absent (c :: m) d.1 (by
            intro e he
            rcases List.mem_cons.mp he with rfl | he
            · exact hgt
            · exact Nat.lt_trans hgt (hc1 e he))] at h1
          simp [byte] at h1
          exact absurd h1.symm (hn.2 d (by simp)).2
      have hval : c.2 = d.2 := by
        have := h c.1
        simpa [byte, key] using this
      have hcd : c = d := Prod.ext key hval
      subst hcd
      have : m = n := ih (tail hm) (tail hn) fun a => by
        by_cases ha : c.1 = a
        · rw [← ha, absent m c.1 hc1, absent n c.1 hd1]
        · have := h a
          simpa [byte, ha] using this
      rw [this]

/-! ### Block load -/

/-- The registers a block load of `n` registers from `a` leaves (R130). -/
theorem loadRegs_getElem (m : Memory) (a n : Nat) (v : Vector Byte 16) (k : Nat) (hk : k < 16) :
    (m.loadRegs a n v)[k] = if k < n then m.byte (a + k) else v[k] := by
  induction n with
  | zero => simp [loadRegs]
  | succ n ih =>
    simp only [loadRegs, Vector.getElem_setIfInBounds]
    by_cases h : n = k
    · subst h; simp
    · rw [if_neg h, ih]
      by_cases h2 : k < n
      · rw [if_pos h2, if_pos (by omega)]
      · rw [if_neg h2, if_neg (by omega)]

end Sys2Proof.Machine.Memory
end

