-- ==== Sys2Proof/Laws/State.lean ====
section
/-! SUPPORT. What each update of the state does to each field, so that no later proof unfolds a record update. -/

namespace Sys2Proof.Machine.State

variable (s : State)

/-! ### setReg -/

@[simp] theorem v_setReg (r : Reg) (b : Byte) : (s.setReg r b).v = s.v.set r b := rfl
@[simp] theorem i_setReg (r : Reg) (b : Byte) : (s.setReg r b).i = s.i := rfl
@[simp] theorem pc_setReg (r : Reg) (b : Byte) : (s.setReg r b).pc = s.pc := rfl
@[simp] theorem stack_setReg (r : Reg) (b : Byte) : (s.setReg r b).stack = s.stack := rfl
@[simp] theorem sp_setReg (r : Reg) (b : Byte) : (s.setReg r b).sp = s.sp := rfl
@[simp] theorem fb_setReg (r : Reg) (b : Byte) : (s.setReg r b).fb = s.fb := rfl
@[simp] theorem dt_setReg (r : Reg) (b : Byte) : (s.setReg r b).dt = s.dt := rfl
@[simp] theorem st_setReg (r : Reg) (b : Byte) : (s.setReg r b).st = s.st := rfl
@[simp] theorem mem_setReg (r : Reg) (b : Byte) : (s.setReg r b).mem = s.mem := rfl
@[simp] theorem run_setReg (r : Reg) (b : Byte) : (s.setReg r b).run = s.run := rfl
@[simp] theorem inputs_setReg (r : Reg) (b : Byte) : (s.setReg r b).inputs = s.inputs := rfl
@[simp] theorem inputClock_setReg (r : Reg) (b : Byte) : (s.setReg r b).inputClock = s.inputClock := rfl
@[simp] theorem events_setReg (r : Reg) (b : Byte) : (s.setReg r b).events = s.events := rfl

/-! ### setI -/

@[simp] theorem v_setI (w : Word) : (s.setI w).v = s.v := rfl
@[simp] theorem i_setI (w : Word) : (s.setI w).i = w := rfl
@[simp] theorem pc_setI (w : Word) : (s.setI w).pc = s.pc := rfl
@[simp] theorem stack_setI (w : Word) : (s.setI w).stack = s.stack := rfl
@[simp] theorem sp_setI (w : Word) : (s.setI w).sp = s.sp := rfl
@[simp] theorem fb_setI (w : Word) : (s.setI w).fb = s.fb := rfl
@[simp] theorem dt_setI (w : Word) : (s.setI w).dt = s.dt := rfl
@[simp] theorem st_setI (w : Word) : (s.setI w).st = s.st := rfl
@[simp] theorem mem_setI (w : Word) : (s.setI w).mem = s.mem := rfl
@[simp] theorem run_setI (w : Word) : (s.setI w).run = s.run := rfl
@[simp] theorem inputs_setI (w : Word) : (s.setI w).inputs = s.inputs := rfl
@[simp] theorem inputClock_setI (w : Word) : (s.setI w).inputClock = s.inputClock := rfl
@[simp] theorem events_setI (w : Word) : (s.setI w).events = s.events := rfl

/-! ### setPC -/

@[simp] theorem v_setPC (w : Word) : (s.setPC w).v = s.v := rfl
@[simp] theorem i_setPC (w : Word) : (s.setPC w).i = s.i := rfl
@[simp] theorem pc_setPC (w : Word) : (s.setPC w).pc = w := rfl
@[simp] theorem stack_setPC (w : Word) : (s.setPC w).stack = s.stack := rfl
@[simp] theorem sp_setPC (w : Word) : (s.setPC w).sp = s.sp := rfl
@[simp] theorem fb_setPC (w : Word) : (s.setPC w).fb = s.fb := rfl
@[simp] theorem dt_setPC (w : Word) : (s.setPC w).dt = s.dt := rfl
@[simp] theorem st_setPC (w : Word) : (s.setPC w).st = s.st := rfl
@[simp] theorem mem_setPC (w : Word) : (s.setPC w).mem = s.mem := rfl
@[simp] theorem run_setPC (w : Word) : (s.setPC w).run = s.run := rfl
@[simp] theorem inputs_setPC (w : Word) : (s.setPC w).inputs = s.inputs := rfl
@[simp] theorem inputClock_setPC (w : Word) : (s.setPC w).inputClock = s.inputClock := rfl
@[simp] theorem events_setPC (w : Word) : (s.setPC w).events = s.events := rfl

/-! ### setDT -/

@[simp] theorem v_setDT (b : Byte) : (s.setDT b).v = s.v := rfl
@[simp] theorem i_setDT (b : Byte) : (s.setDT b).i = s.i := rfl
@[simp] theorem pc_setDT (b : Byte) : (s.setDT b).pc = s.pc := rfl
@[simp] theorem stack_setDT (b : Byte) : (s.setDT b).stack = s.stack := rfl
@[simp] theorem sp_setDT (b : Byte) : (s.setDT b).sp = s.sp := rfl
@[simp] theorem fb_setDT (b : Byte) : (s.setDT b).fb = s.fb := rfl
@[simp] theorem dt_setDT (b : Byte) : (s.setDT b).dt = b := rfl
@[simp] theorem st_setDT (b : Byte) : (s.setDT b).st = s.st := rfl
@[simp] theorem mem_setDT (b : Byte) : (s.setDT b).mem = s.mem := rfl
@[simp] theorem run_setDT (b : Byte) : (s.setDT b).run = s.run := rfl
@[simp] theorem inputs_setDT (b : Byte) : (s.setDT b).inputs = s.inputs := rfl
@[simp] theorem inputClock_setDT (b : Byte) : (s.setDT b).inputClock = s.inputClock := rfl
@[simp] theorem events_setDT (b : Byte) : (s.setDT b).events = s.events := rfl

/-! ### setST -/

@[simp] theorem v_setST (b : Byte) : (s.setST b).v = s.v := rfl
@[simp] theorem i_setST (b : Byte) : (s.setST b).i = s.i := rfl
@[simp] theorem pc_setST (b : Byte) : (s.setST b).pc = s.pc := rfl
@[simp] theorem stack_setST (b : Byte) : (s.setST b).stack = s.stack := rfl
@[simp] theorem sp_setST (b : Byte) : (s.setST b).sp = s.sp := rfl
@[simp] theorem fb_setST (b : Byte) : (s.setST b).fb = s.fb := rfl
@[simp] theorem dt_setST (b : Byte) : (s.setST b).dt = s.dt := rfl
@[simp] theorem st_setST (b : Byte) : (s.setST b).st = b := rfl
@[simp] theorem mem_setST (b : Byte) : (s.setST b).mem = s.mem := rfl
@[simp] theorem run_setST (b : Byte) : (s.setST b).run = s.run := rfl
@[simp] theorem inputs_setST (b : Byte) : (s.setST b).inputs = s.inputs := rfl
@[simp] theorem inputClock_setST (b : Byte) : (s.setST b).inputClock = s.inputClock := rfl
@[simp] theorem events_setST (b : Byte) : (s.setST b).events = s.events := rfl

/-! ### setFB -/

@[simp] theorem v_setFB (f : Frame) : (s.setFB f).v = s.v := rfl
@[simp] theorem i_setFB (f : Frame) : (s.setFB f).i = s.i := rfl
@[simp] theorem pc_setFB (f : Frame) : (s.setFB f).pc = s.pc := rfl
@[simp] theorem stack_setFB (f : Frame) : (s.setFB f).stack = s.stack := rfl
@[simp] theorem sp_setFB (f : Frame) : (s.setFB f).sp = s.sp := rfl
@[simp] theorem fb_setFB (f : Frame) : (s.setFB f).fb = f := rfl
@[simp] theorem dt_setFB (f : Frame) : (s.setFB f).dt = s.dt := rfl
@[simp] theorem st_setFB (f : Frame) : (s.setFB f).st = s.st := rfl
@[simp] theorem mem_setFB (f : Frame) : (s.setFB f).mem = s.mem := rfl
@[simp] theorem run_setFB (f : Frame) : (s.setFB f).run = s.run := rfl
@[simp] theorem inputs_setFB (f : Frame) : (s.setFB f).inputs = s.inputs := rfl
@[simp] theorem inputClock_setFB (f : Frame) : (s.setFB f).inputClock = s.inputClock := rfl
@[simp] theorem events_setFB (f : Frame) : (s.setFB f).events = s.events := rfl

/-! ### emit -/

@[simp] theorem v_emit (e : Event) : (s.emit e).v = s.v := rfl
@[simp] theorem i_emit (e : Event) : (s.emit e).i = s.i := rfl
@[simp] theorem pc_emit (e : Event) : (s.emit e).pc = s.pc := rfl
@[simp] theorem stack_emit (e : Event) : (s.emit e).stack = s.stack := rfl
@[simp] theorem sp_emit (e : Event) : (s.emit e).sp = s.sp := rfl
@[simp] theorem fb_emit (e : Event) : (s.emit e).fb = s.fb := rfl
@[simp] theorem dt_emit (e : Event) : (s.emit e).dt = s.dt := rfl
@[simp] theorem st_emit (e : Event) : (s.emit e).st = s.st := rfl
@[simp] theorem mem_emit (e : Event) : (s.emit e).mem = s.mem := rfl
@[simp] theorem run_emit (e : Event) : (s.emit e).run = s.run := rfl
@[simp] theorem inputs_emit (e : Event) : (s.emit e).inputs = s.inputs := rfl
@[simp] theorem inputClock_emit (e : Event) : (s.emit e).inputClock = s.inputClock := rfl
@[simp] theorem events_emit (e : Event) : (s.emit e).events = e :: s.events := rfl

/-! ### storeBlock -/

@[simp] theorem v_storeBlock (bs : List Byte) : (s.storeBlock bs).v = s.v := rfl
@[simp] theorem i_storeBlock (bs : List Byte) : (s.storeBlock bs).i = s.i := rfl
@[simp] theorem pc_storeBlock (bs : List Byte) : (s.storeBlock bs).pc = s.pc := rfl
@[simp] theorem stack_storeBlock (bs : List Byte) : (s.storeBlock bs).stack = s.stack := rfl
@[simp] theorem sp_storeBlock (bs : List Byte) : (s.storeBlock bs).sp = s.sp := rfl
@[simp] theorem fb_storeBlock (bs : List Byte) : (s.storeBlock bs).fb = s.fb := rfl
@[simp] theorem dt_storeBlock (bs : List Byte) : (s.storeBlock bs).dt = s.dt := rfl
@[simp] theorem st_storeBlock (bs : List Byte) : (s.storeBlock bs).st = s.st := rfl
@[simp] theorem mem_storeBlock (bs : List Byte) : (s.storeBlock bs).mem = s.mem.writeBlock (s.dataAddr 0) bs := rfl
@[simp] theorem run_storeBlock (bs : List Byte) : (s.storeBlock bs).run = s.run := rfl
@[simp] theorem inputs_storeBlock (bs : List Byte) : (s.storeBlock bs).inputs = s.inputs := rfl
@[simp] theorem inputClock_storeBlock (bs : List Byte) : (s.storeBlock bs).inputClock = s.inputClock := rfl
@[simp] theorem events_storeBlock (bs : List Byte) : (s.storeBlock bs).events = s.events := rfl

/-! ### loadBlock -/

@[simp] theorem v_loadBlock (n : Nat) : (s.loadBlock n).v = s.mem.loadRegs (s.dataAddr 0) n s.v := rfl
@[simp] theorem i_loadBlock (n : Nat) : (s.loadBlock n).i = s.i := rfl
@[simp] theorem pc_loadBlock (n : Nat) : (s.loadBlock n).pc = s.pc := rfl
@[simp] theorem stack_loadBlock (n : Nat) : (s.loadBlock n).stack = s.stack := rfl
@[simp] theorem sp_loadBlock (n : Nat) : (s.loadBlock n).sp = s.sp := rfl
@[simp] theorem fb_loadBlock (n : Nat) : (s.loadBlock n).fb = s.fb := rfl
@[simp] theorem dt_loadBlock (n : Nat) : (s.loadBlock n).dt = s.dt := rfl
@[simp] theorem st_loadBlock (n : Nat) : (s.loadBlock n).st = s.st := rfl
@[simp] theorem mem_loadBlock (n : Nat) : (s.loadBlock n).mem = s.mem := rfl
@[simp] theorem run_loadBlock (n : Nat) : (s.loadBlock n).run = s.run := rfl
@[simp] theorem inputs_loadBlock (n : Nat) : (s.loadBlock n).inputs = s.inputs := rfl
@[simp] theorem inputClock_loadBlock (n : Nat) : (s.loadBlock n).inputClock = s.inputClock := rfl
@[simp] theorem events_loadBlock (n : Nat) : (s.loadBlock n).events = s.events := rfl

/-! ### takeFault -/

@[simp] theorem v_takeFault (c : Cause) : (s.takeFault c).v = s.v := rfl
@[simp] theorem i_takeFault (c : Cause) : (s.takeFault c).i = s.i := rfl
@[simp] theorem pc_takeFault (c : Cause) : (s.takeFault c).pc = s.pc := rfl
@[simp] theorem stack_takeFault (c : Cause) : (s.takeFault c).stack = s.stack := rfl
@[simp] theorem sp_takeFault (c : Cause) : (s.takeFault c).sp = s.sp := rfl
@[simp] theorem fb_takeFault (c : Cause) : (s.takeFault c).fb = s.fb := rfl
@[simp] theorem dt_takeFault (c : Cause) : (s.takeFault c).dt = s.dt := rfl
@[simp] theorem st_takeFault (c : Cause) : (s.takeFault c).st = s.st := rfl
@[simp] theorem mem_takeFault (c : Cause) : (s.takeFault c).mem = s.mem := rfl
@[simp] theorem run_takeFault (c : Cause) : (s.takeFault c).run = .halted c := rfl
@[simp] theorem inputs_takeFault (c : Cause) : (s.takeFault c).inputs = s.inputs := rfl
@[simp] theorem inputClock_takeFault (c : Cause) : (s.takeFault c).inputClock = s.inputClock := rfl
@[simp] theorem events_takeFault (c : Cause) : (s.takeFault c).events = .fault c :: s.events := rfl

/-! ### nextInputs -/

@[simp] theorem v_nextInputs : (s.nextInputs).v = s.v := rfl
@[simp] theorem i_nextInputs : (s.nextInputs).i = s.i := rfl
@[simp] theorem pc_nextInputs : (s.nextInputs).pc = s.pc := rfl
@[simp] theorem stack_nextInputs : (s.nextInputs).stack = s.stack := rfl
@[simp] theorem sp_nextInputs : (s.nextInputs).sp = s.sp := rfl
@[simp] theorem fb_nextInputs : (s.nextInputs).fb = s.fb := rfl
@[simp] theorem dt_nextInputs : (s.nextInputs).dt = s.dt := rfl
@[simp] theorem st_nextInputs : (s.nextInputs).st = s.st := rfl
@[simp] theorem mem_nextInputs : (s.nextInputs).mem = s.mem := rfl
@[simp] theorem run_nextInputs : (s.nextInputs).run = s.run := rfl
@[simp] theorem inputs_nextInputs : (s.nextInputs).inputs = s.inputs.tail := rfl
@[simp] theorem inputClock_nextInputs : (s.nextInputs).inputClock = s.inputClock + 1 := rfl
@[simp] theorem events_nextInputs : (s.nextInputs).events = s.events := rfl

/-! ### Updates that are others in turn -/

@[simp] theorem advance_eq : s.advance = s.setPC (s.pc + 2) := rfl

@[simp] theorem skipIf_eq (c : Bool) : s.skipIf c = s.setPC (s.pc + (if c then 4 else 2)) := rfl

@[simp] theorem present_eq : s.present = s.emit (.draw s.fb) := rfl

@[simp] theorem setRegFlag_eq (x : Reg) (b f : Byte) : s.setRegFlag x b f = (s.setReg x b).setReg VF f := rfl

/-! ### Registers -/

/-- A register is read back by its number (R9, R21). -/
theorem reg_eq_of_v {t : State} (h : t.v = s.v) (r : Reg) : t.reg r = s.reg r := by
  simp [reg, h]

@[simp] theorem reg_setReg (r q : Reg) (b : Byte) : (s.setReg r b).reg q = if q = r then b else s.reg q := by
  simp only [reg, v_setReg, Fin.getElem_fin, Vector.getElem_set, Fin.ext_iff, eq_comm]

@[simp] theorem reg_setI (w : Word) (q : Reg) : (s.setI w).reg q = s.reg q := rfl
@[simp] theorem reg_setPC (w : Word) (q : Reg) : (s.setPC w).reg q = s.reg q := rfl
@[simp] theorem reg_setDT (b : Byte) (q : Reg) : (s.setDT b).reg q = s.reg q := rfl
@[simp] theorem reg_setST (b : Byte) (q : Reg) : (s.setST b).reg q = s.reg q := rfl
@[simp] theorem reg_setFB (f : Frame) (q : Reg) : (s.setFB f).reg q = s.reg q := rfl
@[simp] theorem reg_emit (e : Event) (q : Reg) : (s.emit e).reg q = s.reg q := rfl
@[simp] theorem reg_storeBlock (bs : List Byte) (q : Reg) : (s.storeBlock bs).reg q = s.reg q := rfl
@[simp] theorem reg_takeFault (c : Cause) (q : Reg) : (s.takeFault c).reg q = s.reg q := rfl
@[simp] theorem reg_nextInputs (q : Reg) : (s.nextInputs).reg q = s.reg q := rfl

/-! ### Effective addresses and inputs -/

@[simp] theorem dataAddr_setReg (r : Reg) (b : Byte) (k : Nat) : (s.setReg r b).dataAddr k = s.dataAddr k := rfl
@[simp] theorem dataAddr_setPC (w : Word) (k : Nat) : (s.setPC w).dataAddr k = s.dataAddr k := rfl
@[simp] theorem dataAddr_setDT (b : Byte) (k : Nat) : (s.setDT b).dataAddr k = s.dataAddr k := rfl
@[simp] theorem dataAddr_setST (b : Byte) (k : Nat) : (s.setST b).dataAddr k = s.dataAddr k := rfl
@[simp] theorem dataAddr_setFB (f : Frame) (k : Nat) : (s.setFB f).dataAddr k = s.dataAddr k := rfl
@[simp] theorem dataAddr_emit (e : Event) (k : Nat) : (s.emit e).dataAddr k = s.dataAddr k := rfl
@[simp] theorem dataAddr_storeBlock (bs : List Byte) (k : Nat) : (s.storeBlock bs).dataAddr k = s.dataAddr k := rfl
@[simp] theorem dataAddr_loadBlock (n : Nat) (k : Nat) : (s.loadBlock n).dataAddr k = s.dataAddr k := rfl
@[simp] theorem dataAddr_takeFault (c : Cause) (k : Nat) : (s.takeFault c).dataAddr k = s.dataAddr k := rfl
@[simp] theorem dataAddr_nextInputs (k : Nat) : (s.nextInputs).dataAddr k = s.dataAddr k := rfl

end Sys2Proof.Machine.State
end

