-- ==== Sys2Proof/Laws/Ops.lean ====
section
/-! SUPPORT. What the shared operations can do: one lemma each for the call stack, the data range check, the block
transfers, the tick, the end of a cycle, the fetch and the reset. -/

namespace Sys2Proof.Machine

/-! ### The call stack (spec/10_state.md R25) -/

theorem State.push?_of_lt {s : State} (w : Word) (h : s.sp.val < 16) :
    s.push? w = some { s with stack := s.stack.set s.sp.val w, sp := ⟨s.sp.val + 1, by omega⟩ } := by
  simp [push?, h]

theorem State.push?_of_full {s : State} (w : Word) (h : s.sp = 16) : s.push? w = none := by
  simp [push?, h]

/-- A push answers none when 16 calls are pending, else it writes the slot `SP` and counts it. -/
theorem State.push?_cases (s : State) (w : Word) :
    (s.sp = 16 ∧ s.push? w = none) ∨
    ∃ h : s.sp.val < 16,
      s.push? w = some { s with stack := s.stack.set s.sp.val w, sp := ⟨s.sp.val + 1, by omega⟩ } := by
  by_cases h : s.sp.val < 16
  · exact .inr ⟨h, push?_of_lt w h⟩
  · have h' : s.sp = 16 := Fin.ext (by have := s.sp.isLt; show s.sp.val = 16; omega)
    exact .inl ⟨h', push?_of_full w h'⟩

theorem State.pop?_of_pos {s : State} (h : 0 < s.sp.val) :
    s.pop? = some (s.stack[s.sp.val - 1]'(by have := s.sp.isLt; omega),
      { s with sp := ⟨s.sp.val - 1, by have := s.sp.isLt; omega⟩ }) := by
  simp [pop?, h]

theorem State.pop?_of_empty {s : State} (h : s.sp = 0) : s.pop? = none := by
  simp [pop?, h]

/-- A pop answers none when no call is pending, else it uncounts the newest slot and yields it. -/
theorem State.pop?_cases (s : State) :
    (s.sp = 0 ∧ s.pop? = none) ∨
    ∃ h : 0 < s.sp.val,
      s.pop? = some (s.stack[s.sp.val - 1]'(by have := s.sp.isLt; omega),
        { s with sp := ⟨s.sp.val - 1, by have := s.sp.isLt; omega⟩ }) := by
  by_cases h : 0 < s.sp.val
  · exact .inr ⟨h, pop?_of_pos h⟩
  · have h' : s.sp = 0 := Fin.ext (by show s.sp.val = 0; omega)
    exact .inl ⟨h', pop?_of_empty h'⟩

/-! ### The data range check (spec/20_memory.md R58) -/

theorem State.dataFault?_of_in {s : State} {n : Nat} (h : n = 0 ∨ s.dataAddr (n - 1) ≤ 4095) :
    s.dataFault? n = none := by
  unfold dataFault?
  rw [if_neg]
  rintro ⟨h1, h2⟩
  omega

theorem State.dataFault?_of_out {s : State} {n : Nat} (h1 : 1 ≤ n) (h2 : 4095 < s.dataAddr (n - 1)) :
    s.dataFault? n = some (.addressOutOfRange s.pc (s.dataAddr (n - 1))) := by
  simp [dataFault?, h1, h2]

/-- A data access of `n` bytes is done when all of them are in memory, and otherwise takes the fault. -/
theorem State.withData_cases (s : State) (n : Nat) (done : State) :
    ((n = 0 ∨ s.dataAddr (n - 1) ≤ 4095) ∧ s.withData n done = .next done) ∨
    (1 ≤ n ∧ 4095 < s.dataAddr (n - 1) ∧
      s.withData n done = .next (s.takeFault (.addressOutOfRange s.pc (s.dataAddr (n - 1))))) := by
  by_cases h : n = 0 ∨ s.dataAddr (n - 1) ≤ 4095
  · exact .inl ⟨h, by simp [withData, dataFault?_of_in h]⟩
  · have h1 : 1 ≤ n := by omega
    have h2 : 4095 < s.dataAddr (n - 1) := by omega
    exact .inr ⟨h1, h2, by simp [withData, dataFault?_of_out h1 h2]⟩

/-! ### Block transfers (R128, R129, R130) -/

theorem State.regs_length (s : State) (n : Nat) (h : n ≤ 16) : (s.regs n).length = n := by
  simp [regs, h]

theorem State.regs_getD (s : State) (n k : Nat) (hk : k < n) (h : n ≤ 16) :
    (s.regs n).getD k 0 = s.reg ⟨k, by omega⟩ := by
  have h1 : k < (s.regs n).length := by rw [regs_length s n h]; exact hk
  rw [List.getD_eq_getElem _ _ h1]
  simp [regs, reg]

/-- A byte after the single-byte writes of a block from `I` on. -/
theorem State.byte_storeBlock (s : State) (bs : List Byte) (a : Nat)
    (h : s.dataAddr 0 + bs.length ≤ Config.memSize) :
    (s.storeBlock bs).mem.byte a =
      if s.dataAddr 0 ≤ a ∧ a < s.dataAddr 0 + bs.length then bs.getD (a - s.dataAddr 0) 0
      else s.mem.byte a := by
  rw [mem_storeBlock, Memory.byte_writeBlock _ _ _ _ h]

/-- A register after the load of a block from `I` on. -/
theorem State.reg_loadBlock (s : State) (n : Nat) (r : Reg) :
    (s.loadBlock n).reg r = if r.val < n then s.mem.byte (s.i.toNat + r.val) else s.reg r := by
  simp only [reg, v_loadBlock, Fin.getElem_fin, Memory.loadRegs_getElem, dataAddr, Nat.add_zero]

/-- The digits of a byte, read back in decimal (spec/43_index_memory.md R128). -/
theorem decimalDigits_reassemble (b : Byte) :
    ∃ h t u : Byte, decimalDigits b = [h, t, u] ∧ 100 * h.toNat + 10 * t.toNat + u.toNat = b.toNat ∧
      h.toNat ≤ 2 ∧ t.toNat ≤ 9 ∧ u.toNat ≤ 9 := by
  refine ⟨_, _, _, rfl, ?_⟩
  have := b.isLt
  simp only [trunc8, BitVec.toNat_ofNat]
  omega

/-! ### The tick and the end of a cycle (spec/60_exceptions.md R162) -/

theorem State.dt_tick (s : State) : s.tick.dt = if s.dt = 0 then 0 else s.dt - 1 := by
  unfold tick tickDT tickST
  split <;> split <;> simp_all

theorem State.st_tick (s : State) : s.tick.st = if s.st = 0 then 0 else s.st - 1 := by
  unfold tick tickDT tickST
  split <;> split <;> simp_all

theorem State.events_tick (s : State) : s.tick.events = if s.st = 0 then s.events else .beep :: s.events := by
  unfold tick tickDT tickST
  split <;> split <;> simp_all

/-- The tick writes the two timers and the event list, and nothing else. -/
theorem State.tick_parts (s : State) :
    s.tick.v = s.v ∧ s.tick.i = s.i ∧ s.tick.pc = s.pc ∧ s.tick.stack = s.stack ∧ s.tick.sp = s.sp ∧
      s.tick.fb = s.fb ∧ s.tick.mem = s.mem ∧ s.tick.run = s.run ∧ s.tick.inputs = s.inputs ∧
      s.tick.inputClock = s.inputClock := by
  unfold tick tickDT tickST
  split <;> split <;> simp

@[simp] theorem State.v_tick (s : State) : s.tick.v = s.v := s.tick_parts.1
@[simp] theorem State.i_tick (s : State) : s.tick.i = s.i := s.tick_parts.2.1
@[simp] theorem State.pc_tick (s : State) : s.tick.pc = s.pc := s.tick_parts.2.2.1
@[simp] theorem State.stack_tick (s : State) : s.tick.stack = s.stack := s.tick_parts.2.2.2.1
@[simp] theorem State.sp_tick (s : State) : s.tick.sp = s.sp := s.tick_parts.2.2.2.2.1
@[simp] theorem State.fb_tick (s : State) : s.tick.fb = s.fb := s.tick_parts.2.2.2.2.2.1
@[simp] theorem State.mem_tick (s : State) : s.tick.mem = s.mem := s.tick_parts.2.2.2.2.2.2.1
@[simp] theorem State.run_tick (s : State) : s.tick.run = s.run := s.tick_parts.2.2.2.2.2.2.2.1
@[simp] theorem State.inputs_tick (s : State) : s.tick.inputs = s.inputs := s.tick_parts.2.2.2.2.2.2.2.2.1
@[simp] theorem State.inputClock_tick (s : State) : s.tick.inputClock = s.inputClock := s.tick_parts.2.2.2.2.2.2.2.2.2

theorem State.endCycle_of_running {s : State} (h : s.run = .running) : s.endCycle = s.tick.nextInputs := by
  simp [endCycle, h]

theorem State.endCycle_of_halted {s : State} {c : Cause} (h : s.run = .halted c) : s.endCycle = s := by
  simp [endCycle, h]

/-! The end of a cycle writes the timers, the events and the inputs, and nothing else. -/

@[simp] theorem State.v_endCycle (s : State) : s.endCycle.v = s.v := by
  unfold endCycle; split <;> simp [*]

@[simp] theorem State.i_endCycle (s : State) : s.endCycle.i = s.i := by
  unfold endCycle; split <;> simp [*]

@[simp] theorem State.pc_endCycle (s : State) : s.endCycle.pc = s.pc := by
  unfold endCycle; split <;> simp [*]

@[simp] theorem State.stack_endCycle (s : State) : s.endCycle.stack = s.stack := by
  unfold endCycle; split <;> simp [*]

@[simp] theorem State.sp_endCycle (s : State) : s.endCycle.sp = s.sp := by
  unfold endCycle; split <;> simp [*]

@[simp] theorem State.fb_endCycle (s : State) : s.endCycle.fb = s.fb := by
  unfold endCycle; split <;> simp [*]

@[simp] theorem State.mem_endCycle (s : State) : s.endCycle.mem = s.mem := by
  unfold endCycle; split <;> simp [*]

@[simp] theorem State.run_endCycle (s : State) : s.endCycle.run = s.run := by
  unfold endCycle; split <;> simp [*]

@[simp] theorem State.reg_endCycle (s : State) (r : Reg) : s.endCycle.reg r = s.reg r := s.reg_eq_of_v s.v_endCycle r

/-! ### Fetch (spec/20_memory.md R54, R55) -/

theorem State.fetch?_of_in {s : State} (h : s.pc.toNat ≤ 4094) :
    s.fetch? = some (s.mem.byte s.pc.toNat ++ s.mem.byte (s.pc.toNat + 1)) := by
  simp [fetch?, h]

theorem State.fetch?_of_out {s : State} (h : 4094 < s.pc.toNat) : s.fetch? = none := by
  simp [fetch?, h]

/-! ### Reset with an image (spec/70_reset_and_hazards.md R170) -/

theorem State.resetWith_cases (img : List Byte) :
    (3584 < img.length ∧ State.resetWith img = .fault (.imageTooLarge img.length)) ∨
    (img.length ≤ 3584 ∧
      State.resetWith img = .next { State.reset with mem := Memory.writeBlock [] Config.progBase img }) := by
  by_cases h : 3584 < img.length
  · exact .inl ⟨h, by simp [resetWith, h]⟩
  · exact .inr ⟨by omega, by simp [resetWith, h, reset]⟩

end Sys2Proof.Machine
end

