-- ==== Sys2Proof/Laws/PerInstr.lean ====
section
/-! SUPPORT. The opcode map per instruction: the encoding of a well-formed instruction has the fixed bits that the
row of spec/30_encoding.md R76 gives it. -/

namespace Sys2Proof.Laws

/-- The fixed bits of the word of `i` are those of its row. -/
def OpcodeMap.Statement (i : Instr) : Prop := i.wellFormed = true → encode i &&& i.mask = i.pattern

/-! ### Masking a format keeps its fixed bits -/

theorem formatA_mask (op : BitVec 4) (nnn : Addr12) : formatA op nnn &&& 0xF000 = op ++ (0 : BitVec 12) := by
  have h : (0xF000 : Word) = (0xF : BitVec 4) ++ (0 : BitVec 12) := by decide
  have h15 : op &&& 15#4 = op := BitVec.and_allOnes
  rw [h, formatA, BitVec.and_append]
  simp [h15]

theorem formatXI_mask_top (op : BitVec 4) (x : Reg) (k : Byte) :
    formatXI op x k &&& 0xF000 = (op ++ (0 : BitVec 4)) ++ (0 : Byte) := by
  have h : (0xF000 : Word) = ((0xF : BitVec 4) ++ (0 : BitVec 4)) ++ (0 : Byte) := by decide
  have h15 : op &&& 15#4 = op := BitVec.and_allOnes
  rw [h, formatXI, BitVec.and_append, BitVec.and_append]
  simp [h15]

theorem formatXI_mask_selector (op : BitVec 4) (x : Reg) (k : Byte) :
    formatXI op x k &&& 0xF0FF = (op ++ (0 : BitVec 4)) ++ k := by
  have h : (0xF0FF : Word) = ((0xF : BitVec 4) ++ (0 : BitVec 4)) ++ (0xFF : Byte) := by decide
  have h15 : op &&& 15#4 = op := BitVec.and_allOnes
  have h255 : k &&& 255#8 = k := BitVec.and_allOnes
  rw [h, formatXI, BitVec.and_append, BitVec.and_append]
  simp [h15, h255]

theorem formatXY_mask_top (op s : BitVec 4) (x y : Reg) :
    formatXY op x y s &&& 0xF000 = (op ++ (0 : BitVec 4)) ++ ((0 : BitVec 4) ++ (0 : BitVec 4)) := by
  have h : (0xF000 : Word) = ((0xF : BitVec 4) ++ (0 : BitVec 4)) ++ ((0 : BitVec 4) ++ (0 : BitVec 4)) := by decide
  have h15 : op &&& 15#4 = op := BitVec.and_allOnes
  rw [h, formatXY, BitVec.and_append, BitVec.and_append, BitVec.and_append]
  simp [h15]

theorem formatXY_mask_selector (op s : BitVec 4) (x y : Reg) :
    formatXY op x y s &&& 0xF00F = (op ++ (0 : BitVec 4)) ++ ((0 : BitVec 4) ++ s) := by
  have h : (0xF00F : Word) = ((0xF : BitVec 4) ++ (0 : BitVec 4)) ++ ((0 : BitVec 4) ++ (0xF : BitVec 4)) := by decide
  have h15 (a : BitVec 4) : a &&& 15#4 = a := BitVec.and_allOnes
  rw [h, formatXY, BitVec.and_append, BitVec.and_append, BitVec.and_append]
  simp [h15]

/-! ### One lemma per instruction -/

theorem OpcodeMap.cls : OpcodeMap.Statement .cls := fun _ => by decide

theorem OpcodeMap.ret : OpcodeMap.Statement .ret := fun _ => by decide

theorem OpcodeMap.jp (nnn : Addr12) : OpcodeMap.Statement (.jp nnn) := fun _ =>
  (formatA_mask _ nnn).trans (by rfl)

theorem OpcodeMap.call (nnn : Addr12) : OpcodeMap.Statement (.call nnn) := fun _ =>
  (formatA_mask _ nnn).trans (by rfl)

theorem OpcodeMap.seImm (x : Reg) (nn : Byte) : OpcodeMap.Statement (.seImm x nn) := fun _ =>
  (formatXI_mask_top _ x nn).trans (by rfl)

theorem OpcodeMap.sneImm (x : Reg) (nn : Byte) : OpcodeMap.Statement (.sneImm x nn) := fun _ =>
  (formatXI_mask_top _ x nn).trans (by rfl)

theorem OpcodeMap.seReg (x y : Reg) : OpcodeMap.Statement (.seReg x y) := fun _ =>
  (formatXY_mask_selector _ _ x y).trans (by rfl)

theorem OpcodeMap.ldImm (x : Reg) (nn : Byte) : OpcodeMap.Statement (.ldImm x nn) := fun _ =>
  (formatXI_mask_top _ x nn).trans (by rfl)

theorem OpcodeMap.addImm (x : Reg) (nn : Byte) : OpcodeMap.Statement (.addImm x nn) := fun _ =>
  (formatXI_mask_top _ x nn).trans (by rfl)

theorem OpcodeMap.ldReg (x y : Reg) : OpcodeMap.Statement (.ldReg x y) := fun _ =>
  (formatXY_mask_selector _ _ x y).trans (by rfl)

theorem OpcodeMap.orReg (x y : Reg) : OpcodeMap.Statement (.orReg x y) := fun _ =>
  (formatXY_mask_selector _ _ x y).trans (by rfl)

theorem OpcodeMap.andReg (x y : Reg) : OpcodeMap.Statement (.andReg x y) := fun _ =>
  (formatXY_mask_selector _ _ x y).trans (by rfl)

theorem OpcodeMap.xorReg (x y : Reg) : OpcodeMap.Statement (.xorReg x y) := fun _ =>
  (formatXY_mask_selector _ _ x y).trans (by rfl)

theorem OpcodeMap.addReg (x y : Reg) : OpcodeMap.Statement (.addReg x y) := fun _ =>
  (formatXY_mask_selector _ _ x y).trans (by rfl)

theorem OpcodeMap.subReg (x y : Reg) : OpcodeMap.Statement (.subReg x y) := fun _ =>
  (formatXY_mask_selector _ _ x y).trans (by rfl)

theorem OpcodeMap.shr (x y : Reg) : OpcodeMap.Statement (.shr x y) := fun _ =>
  (formatXY_mask_selector _ _ x y).trans (by rfl)

theorem OpcodeMap.subnReg (x y : Reg) : OpcodeMap.Statement (.subnReg x y) := fun _ =>
  (formatXY_mask_selector _ _ x y).trans (by rfl)

theorem OpcodeMap.shl (x y : Reg) : OpcodeMap.Statement (.shl x y) := fun _ =>
  (formatXY_mask_selector _ _ x y).trans (by rfl)

theorem OpcodeMap.sneReg (x y : Reg) : OpcodeMap.Statement (.sneReg x y) := fun _ =>
  (formatXY_mask_selector _ _ x y).trans (by rfl)

theorem OpcodeMap.ldI (nnn : Addr12) : OpcodeMap.Statement (.ldI nnn) := fun _ =>
  (formatA_mask _ nnn).trans (by rfl)

theorem OpcodeMap.jpV0 (nnn : Addr12) : OpcodeMap.Statement (.jpV0 nnn) := fun _ =>
  (formatA_mask _ nnn).trans (by rfl)

theorem OpcodeMap.rnd (x : Reg) (nn : Byte) : OpcodeMap.Statement (.rnd x nn) := fun _ =>
  (formatXI_mask_top _ x nn).trans (by rfl)

theorem OpcodeMap.drw (x y : Reg) (n : Nat) : OpcodeMap.Statement (.drw x y n) := fun _ =>
  (formatXY_mask_top _ _ x y).trans (by rfl)

theorem OpcodeMap.skp (x : Reg) : OpcodeMap.Statement (.skp x) := fun _ =>
  (formatXI_mask_selector _ x _).trans (by rfl)

theorem OpcodeMap.sknp (x : Reg) : OpcodeMap.Statement (.sknp x) := fun _ =>
  (formatXI_mask_selector _ x _).trans (by rfl)

theorem OpcodeMap.ldFromDT (x : Reg) : OpcodeMap.Statement (.ldFromDT x) := fun _ =>
  (formatXI_mask_selector _ x _).trans (by rfl)

theorem OpcodeMap.ldKey (x : Reg) : OpcodeMap.Statement (.ldKey x) := fun _ =>
  (formatXI_mask_selector _ x _).trans (by rfl)

theorem OpcodeMap.ldDT (x : Reg) : OpcodeMap.Statement (.ldDT x) := fun _ =>
  (formatXI_mask_selector _ x _).trans (by rfl)

theorem OpcodeMap.ldST (x : Reg) : OpcodeMap.Statement (.ldST x) := fun _ =>
  (formatXI_mask_selector _ x _).trans (by rfl)

theorem OpcodeMap.addI (x : Reg) : OpcodeMap.Statement (.addI x) := fun _ =>
  (formatXI_mask_selector _ x _).trans (by rfl)

theorem OpcodeMap.ldFont (x : Reg) : OpcodeMap.Statement (.ldFont x) := fun _ =>
  (formatXI_mask_selector _ x _).trans (by rfl)

theorem OpcodeMap.bcd (x : Reg) : OpcodeMap.Statement (.bcd x) := fun _ =>
  (formatXI_mask_selector _ x _).trans (by rfl)

theorem OpcodeMap.store (x : Reg) : OpcodeMap.Statement (.store x) := fun _ =>
  (formatXI_mask_selector _ x _).trans (by rfl)

theorem OpcodeMap.load (x : Reg) : OpcodeMap.Statement (.load x) := fun _ =>
  (formatXI_mask_selector _ x _).trans (by rfl)

end Sys2Proof.Laws
end

