-- ==== Sys2Proof/Laws/Step.lean ====
section
/-! SUPPORT. What a cycle can do (spec/40_cycle.md R91), said once: the later proofs about `step` cite
`step_cases` and never unfold it. -/

namespace Sys2Proof.Machine

theorem step_of_halted {s : State} {c : Cause} (h : s.run = .halted c) : step s = .next s := by
  simp [step, h]

theorem step_of_fetch_none {s : State} (hr : s.run = .running) (h : 4094 < s.pc.toNat) :
    step s = .next (s.takeFault (.fetchOutOfRange s.pc)) := by
  simp [step, hr, State.fetch?_of_out h]

theorem step_of_illegal {s : State} {w : Word} {r : Reject} (hr : s.run = .running) (hf : s.fetch? = some w)
    (h : decodeWord w = .error r) : step s = .next (s.takeFault (.decodeFailure s.pc w)) := by
  simp [step, hr, hf, h]

theorem step_of_decoded {s : State} {w : Word} {i : Instr} {t : State} (hr : s.run = .running)
    (hf : s.fetch? = some w) (h : decodeWord w = .ok i) (ht : exec i s = .next t) :
    step s = .next t.endCycle := by
  simp [step, hr, hf, h, ht]

/-- A cycle that answers a next state is one of four: that of a halted machine, a fetch fault, a decode fault, or
the instruction followed by the end of the cycle. -/
theorem step_cases {s t : State} (h : step s = .next t) :
    (∃ c, s.run = .halted c ∧ t = s) ∨
    (s.run = .running ∧ 4094 < s.pc.toNat ∧ t = s.takeFault (.fetchOutOfRange s.pc)) ∨
    (s.run = .running ∧ s.pc.toNat ≤ 4094 ∧ ∃ w r, s.fetch? = some w ∧ decodeWord w = .error r ∧
      t = s.takeFault (.decodeFailure s.pc w)) ∨
    (s.run = .running ∧ s.pc.toNat ≤ 4094 ∧ ∃ w i u, s.fetch? = some w ∧ decodeWord w = .ok i ∧
      exec i s = .next u ∧ t = u.endCycle) := by
  cases hr : s.run with
  | halted c =>
    rw [step_of_halted hr] at h
    cases h
    exact .inl ⟨c, rfl, rfl⟩
  | running =>
    by_cases hp : 4094 < s.pc.toNat
    · rw [step_of_fetch_none hr hp] at h
      cases h
      exact .inr (.inl ⟨rfl, hp, rfl⟩)
    · have hp : s.pc.toNat ≤ 4094 := by omega
      have hf := State.fetch?_of_in hp
      cases hd : decodeWord (s.mem.byte s.pc.toNat ++ s.mem.byte (s.pc.toNat + 1)) with
      | error r =>
        rw [step_of_illegal hr hf hd] at h
        cases h
        exact .inr (.inr (.inl ⟨rfl, hp, _, r, hf, hd, rfl⟩))
      | ok i =>
        cases he : exec i s with
        | next u =>
          rw [step_of_decoded hr hf hd he] at h
          cases h
          exact .inr (.inr (.inr ⟨rfl, hp, _, i, u, hf, hd, he, rfl⟩))
        | fault r => simp [step, hr, hf, hd, he] at h
        | refused r => simp [step, hr, hf, hd, he] at h

/-- `Executes` in the terms of the fetch. -/
theorem State.executes_iff {s : State} {i : Instr} :
    s.Executes i ↔ s.run = .running ∧ ∃ w, s.fetch? = some w ∧ decodeWord w = .ok i := by
  unfold Executes
  constructor
  · rintro ⟨hr, hp, hd⟩
    refine ⟨hr, _, fetch?_of_in (by omega), ?_⟩
    simp only [decode] at hd
    split at hd
    · rename_i j hj
      cases hd
      exact hj
    · cases hd
  · rintro ⟨hr, w, hf, hd⟩
    unfold fetch? at hf
    split at hf
    · cases hf
      refine ⟨hr, by omega, ?_⟩
      simp only [decode, wordOfBytes, hd]
    · cases hf

end Sys2Proof.Machine
end

