-- ==== Sys2Proof/Tests/Slice0.lean ====
section
/-! SUPPORT. Tests, each of one step on a small state, with the expected result from spec/95_test_vectors.md (the
vector's id stands before each); the words of the opcode map written out bit by bit from spec/30_encoding.md R72 and
R76; and for every statement with hypotheses a state that meets them. -/

namespace Sys2Proof.Tests

open Sys2Proof.Machine

/-- The state after one cycle satisfies `p`. -/
def after (s : State) (p : State → Bool) : Bool :=
  match step s with
  | .next t => p t
  | .fault _ | .refused _ => false

/-- `s` with the word `w` where the next cycle fetches. -/
def running (w : Nat) (s : State) : State := s.withFetchWord 16 w

/-- The reset state with two registers set. -/
def regs (x : Reg) (a : Byte) (y : Reg) (b : Byte) : State := (State.reset.setReg x a).setReg y b

/-- `s` with these bytes from address `a` on. -/
def bytesAt (a : Nat) (bs : List Byte) (s : State) : State := { s with mem := s.mem.writeBlock a bs }

/-- `s` in a cycle whose inputs are these. -/
def inputs (key : Option Key) (rnd : Byte) (s : State) : State := { s with inputs := [⟨key, rnd⟩] }

/-- The events of the cycle, the newest first. -/
def emitted (t : State) (n : Nat) : Bool := t.events.length == n

/-! ### WellFormed refuses -/

theorem test_wellFormed_refuses_height_16 : Instr.wellFormed (.drw 0 0 16) = false := by decide

/-! ### Words, bit by bit (R72, R76) -/

theorem test_decode_format_Z :
    decodeWord 0b0000000011100000 = .ok .cls ∧ decodeWord 0b0000000011101110 = .ok .ret := by decide

theorem test_decode_format_A :
    decodeWord 0b0001101010111100 = .ok (.jp 0xABC) ∧ decodeWord 0b0010010000000000 = .ok (.call 0x400) ∧
    decodeWord 0b1010000100100011 = .ok (.ldI 0x123) ∧ decodeWord 0b1011001100000000 = .ok (.jpV0 0x300) := by
  decide

theorem test_decode_format_XI :
    decodeWord 0b0011101001000010 = .ok (.seImm 10 0x42) ∧ decodeWord 0b0100101001000010 = .ok (.sneImm 10 0x42) ∧
    decodeWord 0b0110110010101011 = .ok (.ldImm 12 0xAB) ∧ decodeWord 0b0111010111111111 = .ok (.addImm 5 0xFF) ∧
    decodeWord 0b1100001100001111 = .ok (.rnd 3 0x0F) := by decide

theorem test_decode_format_XY :
    decodeWord 0b0101000100100000 = .ok (.seReg 1 2) ∧ decodeWord 0b1000000100100000 = .ok (.ldReg 1 2) ∧
    decodeWord 0b1000000100100001 = .ok (.orReg 1 2) ∧ decodeWord 0b1000000100100010 = .ok (.andReg 1 2) ∧
    decodeWord 0b1000000100100011 = .ok (.xorReg 1 2) ∧ decodeWord 0b1000000100100100 = .ok (.addReg 1 2) ∧
    decodeWord 0b1000000100100101 = .ok (.subReg 1 2) ∧ decodeWord 0b1000000100100110 = .ok (.shr 1 2) ∧
    decodeWord 0b1000000100100111 = .ok (.subnReg 1 2) ∧ decodeWord 0b1000000100101110 = .ok (.shl 1 2) ∧
    decodeWord 0b1001101010110000 = .ok (.sneReg 10 11) := by decide

theorem test_decode_format_XYN :
    decodeWord 0b1101000100101010 = .ok (.drw 1 2 10) ∧ decodeWord 0b1101111111111111 = .ok (.drw 15 15 15) := by
  decide

theorem test_decode_format_XS :
    decodeWord 0b1110000110011110 = .ok (.skp 1) ∧ decodeWord 0b1110000110100001 = .ok (.sknp 1) ∧
    decodeWord 0b1111000100000111 = .ok (.ldFromDT 1) ∧ decodeWord 0b1111000100001010 = .ok (.ldKey 1) ∧
    decodeWord 0b1111000100010101 = .ok (.ldDT 1) ∧ decodeWord 0b1111000100011000 = .ok (.ldST 1) ∧
    decodeWord 0b1111000100011110 = .ok (.addI 1) ∧ decodeWord 0b1111000100101001 = .ok (.ldFont 1) ∧
    decodeWord 0b1111000100110011 = .ok (.bcd 1) ∧ decodeWord 0b1111000101010101 = .ok (.store 1) ∧
    decodeWord 0b1111000101100101 = .ok (.load 1) := by decide

/-- T-DEC-3 to T-DEC-9, T-DEC-11. -/
theorem test_decode_illegal :
    decodeWord 0x0000 = .error (.illegal0 0x0000) ∧ decodeWord 0x01E0 = .error (.illegal0 0x01E0) ∧
    decodeWord 0x5121 = .error (.illegal5 0x5121) ∧ decodeWord 0x8AB8 = .error (.illegal8 0x8AB8) ∧
    decodeWord 0x8ABF = .error (.illegal8 0x8ABF) ∧ decodeWord 0x9AB1 = .error (.illegal9 0x9AB1) ∧
    decodeWord 0xE19F = .error (.illegalE 0xE19F) ∧ decodeWord 0xF11F = .error (.illegalF 0xF11F) ∧
    decodeWord 0xFFFF = .error (.illegalF 0xFFFF) ∧ decode [0x12] = .error .truncated := by decide

/-- T-DEC-14: `A3 00` is 0xA300. -/
theorem test_decode_big_endian : decode [0xA3, 0x00, 0x55] = .ok (.ldI 0x300, [0x55]) := by decide

theorem test_decodeTableWord : decodeTableWord 16 0x8126 = some (.shr 1 2) ∧ decodeTableWord 16 0x5121 = none := by
  decide

/-! ### Control flow -/

/-- T-FLOW-2. -/
theorem test_jp_odd : after (running 0x1201 .reset) (fun t => t.pc == 0x0201) = true := by decide

/-- T-FLOW-4. -/
theorem test_call : after (running 0x2400 { State.reset with pc := 0x2A6 })
    (fun t => t.pc == 0x400 && t.sp == 1 && t.stack[0] == 0x2A6) = true := by decide

/-- T-FLOW-6: from an odd call site, to a PC that cannot be fetched. -/
theorem test_ret : after (running 0x00EE { State.reset with sp := 1, stack := State.reset.stack.set 0 0xFFD })
    (fun t => t.pc == 0xFFF && t.sp == 0 && t.run == .running) = true := by decide

/-- T-FLT-5, the 17th call. -/
theorem test_call_overflow : after (running 0x2200 { State.reset with sp := 16, st := 4 })
    (fun t => t.run == .halted (.stackOverflow 0x200) && t.sp == 16 && t.st == 4 &&
      t.events == [.fault (.stackOverflow 0x200)]) = true := by decide

/-- T-FLT-6. -/
theorem test_ret_underflow : after (running 0x00EE .reset)
    (fun t => t.run == .halted (.stackUnderflow 0x200) && t.pc == 0x200) = true := by decide

/-- T-FLOW-7. -/
theorem test_seImm_skips : after (running 0x3A42 (regs 10 0x42 0 0)) (fun t => t.pc == 0x204) = true := by decide

/-- T-FLOW-10. -/
theorem test_sneImm_equal : after (running 0x4A42 (regs 10 0x42 0 0)) (fun t => t.pc == 0x202) = true := by decide

/-- T-FLOW-12. -/
theorem test_seReg_differ : after (running 0x5120 (regs 1 7 2 8)) (fun t => t.pc == 0x202) = true := by decide

/-- T-FLOW-14. -/
theorem test_sneReg_differ : after (running 0x9120 (regs 1 7 2 8)) (fun t => t.pc == 0x204) = true := by decide

/-- T-FLOW-17: not reduced modulo 4096. -/
theorem test_jpV0_above_memory : after (running 0xBFFF (regs 0 0xFF 1 0)) (fun t => t.pc == 0x10FE) = true := by decide

/-! ### Arithmetic -/

/-- T-ALU-1. -/
theorem test_ldImm : after (running 0x6CAB .reset) (fun t => t.reg 12 == 0xAB) = true := by decide

/-- T-ALU-2. -/
theorem test_addImm_wraps_without_flag : after (running 0x7501 (regs 5 0xFF 15 0x77))
    (fun t => t.reg 5 == 0 && t.reg 15 == 0x77) = true := by decide

/-- T-ALU-4. -/
theorem test_ldReg : after (running 0x8120 (regs 1 1 2 0x99)) (fun t => t.reg 1 == 0x99) = true := by decide

/-- T-ALU-5. -/
theorem test_orReg : after (running 0x8121 ((regs 1 0xF0 2 0x0F).setReg 15 0x55))
    (fun t => t.reg 1 == 0xFF && t.reg 15 == 0x55) = true := by decide

/-- T-ALU-6. -/
theorem test_andReg : after (running 0x8122 ((regs 1 0xFC 2 0x3F).setReg 15 0x55))
    (fun t => t.reg 1 == 0x3C && t.reg 15 == 0x55) = true := by decide

/-- T-ALU-7. -/
theorem test_xorReg : after (running 0x8123 ((regs 1 0xFF 2 0x0F).setReg 15 0x55))
    (fun t => t.reg 1 == 0xF0 && t.reg 15 == 0x55) = true := by decide

/-- W1-a. -/
theorem test_addReg_carry : after (running 0x8124 (regs 1 200 2 100))
    (fun t => t.reg 1 == 44 && t.reg 15 == 1) = true := by decide

/-- T-ALU-11: with X = 15 the sum is lost and the flag remains. -/
theorem test_addReg_into_VF : after (running 0x8F14 (regs 15 1 1 1)) (fun t => t.reg 15 == 0) = true := by decide

/-- W2-b. -/
theorem test_subReg_borrow : after (running 0x8125 (regs 1 3 2 10))
    (fun t => t.reg 1 == 0xF9 && t.reg 15 == 0) = true := by decide

/-- W2-c. -/
theorem test_subReg_equal : after (running 0x8125 (regs 1 7 2 7))
    (fun t => t.reg 1 == 0 && t.reg 15 == 1) = true := by decide

/-- T-ALU-18. -/
theorem test_shr_ignores_Y : after (running 0x8126 (regs 1 5 2 0xFF))
    (fun t => t.reg 1 == 2 && t.reg 15 == 1 && t.reg 2 == 0xFF) = true := by decide

/-- T-ALU-16. -/
theorem test_subnReg_borrow : after (running 0x8127 (regs 1 10 2 3))
    (fun t => t.reg 1 == 0xF9 && t.reg 15 == 0) = true := by decide

/-- T-ALU-21. -/
theorem test_shl_raw_flag : after (running 0x812E (regs 1 0x81 2 0xFF))
    (fun t => t.reg 1 == 2 && t.reg 15 == 0x80 && t.reg 2 == 0xFF) = true := by decide

/-- T-ALU-24. -/
theorem test_shl_VF : after (running 0x8F0E (regs 15 0x40 0 0)) (fun t => t.reg 15 == 0) = true := by decide

/-- T-ALU-25. -/
theorem test_rnd_masked : after (inputs none 0xA7 (running 0xC30F .reset)) (fun t => t.reg 3 == 7) = true := by decide

/-! ### Index register and memory -/

/-- T-IDX-1. -/
theorem test_ldI : after (running 0xA123 .reset) (fun t => t.i == 0x123) = true := by decide

/-- T-IDX-3. -/
theorem test_addI_wraps_at_16_bits : after (running 0xF11E { regs 1 2 15 9 with i := 0xFFFF })
    (fun t => t.i == 1 && t.reg 15 == 9) = true := by decide

/-- T-IDX-7. -/
theorem test_ldFont_unmasked : after (running 0xF129 (regs 1 0xFF 0 0)) (fun t => t.i == 0x54B) = true := by decide

/-- T-IDX-8. -/
theorem test_bcd_at_the_top : after (running 0xF133 { regs 1 255 0 0 with i := 0xFFD })
    (fun t => t.mem.byte 0xFFD == 2 && t.mem.byte 0xFFE == 5 && t.mem.byte 0xFFF == 5) = true := by decide

/-- T-IDX-9. -/
theorem test_bcd_beyond_memory : after (running 0xF133 { regs 1 255 0 0 with i := 0xFFE })
    (fun t => t.run == .halted (.addressOutOfRange 0x200 4096) && t.mem.byte 0xFFE == 0 && t.pc == 0x200) = true := by
  decide

/-- T-IDX-10. -/
theorem test_store : after (running 0xF355 { ((regs 0 1 1 2).setReg 2 3).setReg 3 4 with i := 0x300 })
    (fun t => t.mem.byte 0x300 == 1 && t.mem.byte 0x303 == 4 && t.mem.byte 0x304 == 0 && t.i == 0x300) = true := by
  decide

/-- T-IDX-12: no partial store. -/
theorem test_store_beyond_memory : after (running 0xF155 { regs 0 0xAA 1 0 with i := 0xFFF })
    (fun t => t.run == .halted (.addressOutOfRange 0x200 4096) && t.mem.byte 0xFFF == 0) = true := by decide

/-- T-IDX-13. -/
theorem test_load : after (running 0xF365 (bytesAt 0x300 [9, 8, 7, 6, 5] { regs 4 0x44 0 0 with i := 0x300 }))
    (fun t => t.reg 0 == 9 && t.reg 3 == 6 && t.reg 4 == 0x44 && t.i == 0x304) = true := by decide

/-- T-IDX-16: the address is not truncated. -/
theorem test_load_beyond_memory : after (running 0xFF65 { State.reset with i := 0xFFF0 })
    (fun t => t.run == .halted (.addressOutOfRange 0x200 65535) && t.i == 0xFFF0) = true := by decide

/-! ### Display -/

/-- T-DSP-1. -/
theorem test_cls : after (running 0x00E0 { regs 15 9 0 0 with fb := State.reset.fb.setCell (63, 31) 255 })
    (fun t => t.fb.linear 2047 == 0 && t.reg 15 == 9 && emitted t 1 && t.pc == 0x202) = true := by decide

/-- W4-a: the columns wrap on the same row, FB[380..383] and FB[320..323]. -/
theorem test_drw_wraps : after (running 0xD011 (bytesAt 0x300 [0xFF] { regs 0 60 1 5 with i := 0x300 }))
    (fun t => t.fb.linear 379 == 0 && t.fb.linear 380 == 255 && t.fb.linear 383 == 255 && t.fb.linear 320 == 255 &&
      t.fb.linear 323 == 255 && t.fb.linear 324 == 0 && t.fb.linear 384 == 0 && t.reg 15 == 0 && emitted t 1) = true := by
  decide

/-- T-DSP-6: a collision leaves 255 in VF. -/
theorem test_drw_collides : after (running 0xD011 (bytesAt 0x300 [0xC0]
      { regs 0 0 15 7 with i := 0x300, fb := State.reset.fb.setCell (0, 0) 255 }))
    (fun t => t.fb.linear 0 == 0 && t.fb.linear 1 == 255 && t.reg 15 == 255) = true := by decide

/-- T-DSP-9: height 0 reads no memory and still presents. -/
theorem test_drw_height_0 : after (running 0xD010 { regs 15 7 0 0 with i := 0xFFFF })
    (fun t => t.reg 15 == 0 && emitted t 1 && t.run == .running) = true := by decide

/-- T-DSP-11. -/
theorem test_drw_beyond_memory : after (running 0xD012 (bytesAt 0xFFF [0x01] { State.reset with i := 0xFFF }))
    (fun t => t.run == .halted (.addressOutOfRange 0x200 4096) && t.fb.linear 7 == 0 && emitted t 1) = true := by decide

/-! ### Keypad and timers -/

/-- T-KEY-4: the whole byte is compared. -/
theorem test_skp_whole_byte : after (inputs (some 5) 0 (running 0xE19E (regs 1 0x15 0 0)))
    (fun t => t.pc == 0x202) = true := by decide

/-- T-KEY-1. -/
theorem test_skp_pressed : after (inputs (some 5) 0 (running 0xE19E (regs 1 5 0 0)))
    (fun t => t.pc == 0x204) = true := by decide

/-- T-KEY-7. -/
theorem test_sknp_no_key : after (inputs none 0 (running 0xE1A1 (regs 1 5 0 0))) (fun t => t.pc == 0x204) = true := by
  decide

/-- T-KEY-9. -/
theorem test_ldFromDT : after (running 0xF107 { State.reset with dt := 9 })
    (fun t => t.reg 1 == 9 && t.dt == 8) = true := by decide

/-- T-KEY-17: the waiting cycle ticks. -/
theorem test_ldKey_waits : after (inputs none 0 (running 0xF10A { regs 1 0x33 0 0 with dt := 2, st := 1 }))
    (fun t => t.pc == 0x200 && t.reg 1 == 0x33 && t.dt == 1 && t.st == 0 && t.events == [.beep]) = true := by decide

/-- T-KEY-18. -/
theorem test_ldKey_stores : after (inputs (some 0xB) 0 (running 0xF10A (regs 1 0x33 0 0)))
    (fun t => t.reg 1 == 0x0B && t.pc == 0x202) = true := by decide

/-- T-KEY-11. -/
theorem test_ldDT : after (running 0xF115 (regs 1 9 0 0)) (fun t => t.dt == 8) = true := by decide

/-- T-KEY-14. -/
theorem test_ldST_beeps : after (running 0xF118 (regs 1 2 0 0))
    (fun t => t.st == 1 && t.events == [.beep]) = true := by decide

/-- T-KEY-15. -/
theorem test_ldST_silences : after (running 0xF118 { regs 1 0 0 0 with st := 5 })
    (fun t => t.st == 0 && emitted t 0) = true := by decide

/-! ### Faults of fetch and decode, the halted machine, reset -/

/-- T-TICK-7. -/
theorem test_decode_failure : after (running 0x5011 { State.reset with st := 4 })
    (fun t => t.run == .halted (.decodeFailure 0x200 0x5011) && t.st == 4 &&
      t.events == [.fault (.decodeFailure 0x200 0x5011)]) = true := by decide

/-- T-FLT-3, T-FLT-9. -/
theorem test_fetch_4095 : after { State.reset with pc := 0xFFF }
    (fun t => t.run == .halted (.fetchOutOfRange 0xFFF) && t.pc == 0xFFF) = true := by decide

/-- T-FLT-4. -/
theorem test_fetch_4094 : after { State.reset with pc := 0xFFE }
    (fun t => t.run == .halted (.decodeFailure 0xFFE 0)) = true := by decide

/-- T-FLT-8: a halted machine does not beep. -/
theorem test_halted_is_still : after { State.reset with run := .halted (.stackUnderflow 0x200), st := 4 }
    (fun t => t.st == 4 && emitted t 0 && t.pc == 0x200) = true := by decide

/-- R150: the numbers of the faults. -/
theorem test_fault_codes :
    Fault.code (.imageTooLarge 3585) = 1 ∧ Cause.code (.fetchOutOfRange 0) = 2 ∧ Cause.code (.decodeFailure 0 0) = 3 ∧
    Cause.code (.stackOverflow 0) = 4 ∧ Cause.code (.stackUnderflow 0) = 5 ∧ Cause.code (.addressOutOfRange 0 0) = 6 := by
  decide

/-- T-RST-1: the glyph table, and the image `00 E0 12 02`. -/
theorem test_reset_with_image :
    (match State.resetWith [0x00, 0xE0, 0x12, 0x02] with
      | .next t => t.mem.byte 0x050 == 0xF0 && t.mem.byte 0x09F == 0x80 && t.mem.byte 0x0A0 == 0 &&
          t.mem.byte 0x201 == 0xE0 && t.mem.byte 0x203 == 0x02 && t.mem.byte 0x204 == 0
      | .fault _ | .refused _ => false) = true := by decide

/-! ### States that meet the hypotheses of the statements -/

theorem witness_encodeThenDecode :
    Instr.wellFormed (.drw 1 2 0) = true ∧ Instr.wellFormed (.drw 15 15 15) = true := by decide

theorem witness_decodeThenEncode : decodeWord 0xD12F = .ok (.drw 1 2 15) := by decide

theorem witness_resetLoadsTheImage : ([] : List Byte).length ≤ 3584 ∧ (List.replicate 3584 (0 : Byte)).length ≤ 3584 :=
  ⟨Nat.zero_le _, by rw [List.length_replicate]⟩

theorem witness_resetRefusesALongImage : 3584 < (List.replicate 3585 (0 : Byte)).length := by
  rw [List.length_replicate]; exact Nat.lt_succ_self _

/-- At the last address that can be fetched. -/
theorem witness_stepRunsTheDecodedInstruction :
    (running 0x1200 { State.reset with pc := 4094 }).Executes (.jp 0x200) ∧ Instr.wellFormed (.jp 0x200) = true := by
  unfold State.Executes; decide

theorem witness_endOfCycleTicks :
    State.reset.run = .running ∧ ({ State.reset with dt := 1, st := 1 } : State).run = .running := ⟨rfl, rfl⟩

/-- A cycle that completes, with one input given and with none; `witness_faults` holds cycles that halt. -/
theorem witness_eachCycleTakesOneInput :
    (∃ t, step (running 0xF00A { State.reset with inputs := [⟨none, 1⟩] }) = .next t ∧ t.run = .running) ∧
    (∃ t, step (running 0x00E0 .reset) = .next t ∧ t.run = .running) := by
  refine ⟨⟨_, rfl, ?_⟩, ⟨_, rfl, ?_⟩⟩ <;> decide

theorem witness_fetchOutOfRangeHalts :
    ({ State.reset with pc := 4095 } : State).run = .running ∧
    4094 < ({ State.reset with pc := 4095 } : State).pc.toNat := by decide

/-- At the last address that can be fetched. -/
theorem witness_illegalWordHalts :
    let s : State := { State.reset with pc := 4094 }
    s.run = .running ∧ s.pc.toNat ≤ 4094 ∧
      (0 : Word).toNat = (s.mem.byte s.pc.toNat).toNat * 256 + (s.mem.byte (s.pc.toNat + 1)).toNat ∧
      decodeWord 0 = .error (.illegal0 0) := by decide

theorem witness_haltedMachineChangesNothing :
    ({ State.reset with run := .halted (.stackUnderflow 0x200) } : State).run = .halted (.stackUnderflow 0x200) := rfl

/-- A cycle that halts, for each cause: `FaultsArePrecise`, `FaultsAreThoseListed`. -/
theorem witness_faults :
    (∃ t, step { State.reset with pc := 4095 } = .next t ∧ t.run = .halted (.fetchOutOfRange 4095)) ∧
    (∃ t, step State.reset = .next t ∧ t.run = .halted (.decodeFailure 0x200 0)) ∧
    (∃ t, step (running 0x2200 { State.reset with sp := 16 }) = .next t ∧ t.run = .halted (.stackOverflow 0x200)) ∧
    (∃ t, step (running 0x00EE .reset) = .next t ∧ t.run = .halted (.stackUnderflow 0x200)) ∧
    (∃ t, step (running 0xD012 { State.reset with i := 4095 }) = .next t ∧
      t.run = .halted (.addressOutOfRange 0x200 4096)) ∧
    (∃ t, step (running 0xF033 { State.reset with i := 4094 }) = .next t ∧
      t.run = .halted (.addressOutOfRange 0x200 4096)) ∧
    (∃ t, step (running 0xF155 { State.reset with i := 4095 }) = .next t ∧
      t.run = .halted (.addressOutOfRange 0x200 4096)) ∧
    (∃ t, step (running 0xF165 { State.reset with i := 4095 }) = .next t ∧
      t.run = .halted (.addressOutOfRange 0x200 4096)) := by
  refine ⟨⟨_, rfl, ?_⟩, ⟨_, rfl, ?_⟩, ⟨_, rfl, ?_⟩, ⟨_, rfl, ?_⟩, ⟨_, rfl, ?_⟩, ⟨_, rfl, ?_⟩, ⟨_, rfl, ?_⟩,
    ⟨_, rfl, ?_⟩⟩ <;> decide

/-- A cycle that draws, one that beeps, one that does both is a draw with the sound timer set. -/
theorem witness_eventsOfACycle :
    (∃ t, step (running 0x00E0 { State.reset with st := 1 }) = .next t ∧ t.run = .running) ∧
    (running 0x00E0 { State.reset with st := 1 }).run = .running ∧
    (running 0x00E0 { State.reset with st := 1 }).Executes .cls := by
  refine ⟨⟨_, rfl, by decide⟩, rfl, ?_⟩
  unfold State.Executes; decide

theorem witness_jumpToItself :
    (running 0x1200 .reset).Executes (.jp 0x200) ∧ (running 0x1200 .reset).pc.toNat = (0x200 : Addr12).toNat ∧
    (running 0x1200 .reset).dt = 0 ∧ (running 0x1200 .reset).st = 0 := by
  unfold State.Executes; decide

/-- A running state that meets the invariant, a call pending, and takes a step. -/
theorem witness_stepKeepsTheInvariant :
    let s : State := { State.reset with pc := 0x300, sp := 1, stack := State.reset.stack.set 0 4094 }
    s.Inv ∧ ∃ t, step s = .next t := by
  refine ⟨⟨⟨List.Pairwise.nil, by simp [State.reset]⟩, fun c => ?_, ?_, by decide⟩, _, rfl⟩
  · left; simp [State.reset, Frame.cell]
  · decide

theorem witness_writtenAreThoseListed : ∃ t, exec (.addReg 1 2) State.reset = .next t := ⟨_, rfl⟩

/-- The key is the same and the byte another; the byte is the same and the key another; all another. -/
theorem witness_inputsMatterOnlyWhereSampled :
    let s : State := { State.reset with inputs := [⟨some 5, 1⟩] }
    (s.withInputs [⟨some 5, 2⟩] 7).key = s.key ∧ (∃ t, exec (.skp 1) s = .next t) ∧
    (s.withInputs [⟨none, 1⟩] 7).rnd = s.rnd ∧ (∃ t, exec (.rnd 1 0xFF) s = .next t) ∧
    samplesKey .cls = false ∧ samplesRnd .cls = false ∧ (∃ t, exec .cls s = .next t) :=
  ⟨rfl, ⟨_, rfl⟩, rfl, ⟨_, rfl⟩, rfl, rfl, ⟨_, rfl⟩⟩

/-- With no call pending, and with one slot left. -/
theorem witness_callPushesTheCallSite :
    State.reset.sp.val < 16 ∧ ({ State.reset with sp := 15 } : State).sp.val < 16 := by decide

/-- With one call pending, and with a full stack. -/
theorem witness_returnResumesAfterTheCallSite :
    0 < ({ State.reset with sp := 1 } : State).sp.val ∧ 0 < ({ State.reset with sp := 16 } : State).sp.val := by decide

theorem witness_stackBoundsHalt : ({ State.reset with sp := 16 } : State).sp.val = 16 ∧ State.reset.sp.val = 0 := by
  decide

/-- The subroutine changed a register and the display between the call and the return. -/
theorem witness_callThenReturn :
    State.reset.sp.val < 16 ∧ ∃ t, exec (.call 0x20A) State.reset = .next t ∧
      ((t.setReg 1 9).setFB Frame.clear).stack = t.stack ∧ ((t.setReg 1 9).setFB Frame.clear).sp = t.sp :=
  ⟨by decide, _, rfl, rfl, rfl⟩

/-- With inputs given, the last clause of `RandomIsMasked`. -/
theorem witness_randomIsMasked : (inputs none 0xA7 .reset).inputs = [⟨none, 0xA7⟩] ∧ (0 : Reg) ≠ VF := by decide

theorem witness_bcdStoresTheDigits : ({ State.reset with i := 4093 } : State).i.toNat + 2 ≤ 4095 := by decide

/-- All sixteen registers at the top of memory: `BlockStoreCopiesRegisters`, `BlockLoadCopiesMemory`. -/
theorem witness_blockMoves : ({ State.reset with i := 4080 } : State).i.toNat + (15 : Reg).val ≤ 4095 := by decide

theorem witness_storeThenLoadRoundTrip :
    let s : State := { State.reset with i := 4080 }
    s.i.toNat + (15 : Reg).val ≤ 4095 ∧ ∃ t, exec (.store 15) s = .next t ∧
      (t.setReg 3 7).mem = t.mem ∧ (t.setReg 3 7).i = t.i :=
  ⟨by decide, _, rfl, rfl, rfl⟩

/-- The first address beyond memory, for each form. -/
theorem witness_dataBeyondMemoryHalts :
    4095 < ({ State.reset with i := 4094 } : State).i.toNat + 2 ∧
    4095 < ({ State.reset with i := 4081 } : State).i.toNat + (15 : Reg).val ∧
    4095 < ({ State.reset with i := 4082 } : State).i.toNat + 15 - 1 := by decide

/-- The last two bytes of memory. -/
theorem witness_storedBytesAreFetched :
    let s : State := { State.reset with i := 4094 }
    s.i.toNat + (1 : Reg).val ≤ 4095 ∧ (∃ t, exec (.store 1) s = .next t) ∧ (0 : Reg).val + 1 ≤ (1 : Reg).val ∧
      (4094 : Word).toNat = s.i.toNat + (0 : Reg).val :=
  ⟨by decide, ⟨_, rfl⟩, by decide, by decide⟩

/-- Fifteen rows at the top of memory; no row at an address outside memory. -/
theorem witness_drawXorsTheSprite :
    ({ State.reset with i := 4081 } : State).i.toNat + 15 - 1 ≤ 4095 ∧ ((0 : Nat) = 0) := by decide

/-- A covered cell that was 0, a covered cell that was 255, a cell that is not covered. -/
theorem witness_drawClauses :
    let s : State := bytesAt 0x300 [0xC0] { State.reset with i := 0x300, fb := State.reset.fb.setCell (0, 0) 255 }
    s.Covers 0 1 1 (0, 0) ∧ s.fb.cell (0, 0) = 255 ∧ s.Covers 0 1 1 (1, 0) ∧ s.fb.cell (1, 0) = 0 ∧
      ¬ s.Covers 0 1 1 (2, 0) := by
  unfold State.Covers; decide

/-- Two draws in turn, registers X and Y other than VF. -/
theorem witness_drawTwiceRestoresTheBuffer :
    let s : State := bytesAt 0x300 [0xC0] { State.reset with i := 0x300 }
    (1 : Nat) < 16 ∧ s.i.toNat + 1 - 1 ≤ 4095 ∧ (0 : Reg) ≠ VF ∧ (1 : Reg) ≠ VF ∧
      ∃ t u, exec (.drw 0 1 1) s = .next t ∧ exec (.drw 0 1 1) t = .next u :=
  ⟨by decide, by decide, by decide, by decide, _, _, rfl, rfl⟩

/-- The greatest key pressed and held by the register; no key pressed. -/
theorem witness_keys :
    (inputs (some 15) 0 (regs 1 15 0 0)).key = some 15 ∧
    (15 : Key).val = ((inputs (some 15) 0 (regs 1 15 0 0)).reg 1).toNat ∧ (inputs none 0 .reset).key = none := by decide

theorem witness_waitingCycleTicks :
    (inputs none 0 (running 0xF10A .reset)).Executes (.ldKey 1) ∧ (inputs none 0 (running 0xF10A .reset)).key = none := by
  unfold State.Executes; decide

theorem witness_timerSetThenTicks :
    (running 0xF118 (regs 1 255 0 0)).Executes (.ldST 1) ∧ (running 0xF115 (regs 1 255 0 0)).Executes (.ldDT 1) := by
  unfold State.Executes; decide

/-- A run of one cycle, of a jump to itself with the sound timer at 1. -/
theorem witness_soundTimerBeepsOncePerDecrement :
    let s : State := running 0x1200 { State.reset with st := 1 }
    ∃ t, s.Completes t ∧ ∀ x, ¬ s.Executes (.ldST x) := by
  refine ⟨_, ⟨rfl, rfl, by decide⟩, ?_⟩
  unfold State.Executes; decide

end Sys2Proof.Tests
end

/-! PROOFS. The jumps and the register skips (spec/41_flow.md R101, R103 to R107): each is one write of PC, which
keeps every other part of the state. -/

namespace Sys2Proof.Machine

/-! ### A write of PC keeps every other part -/

theorem State.keptBut_setPC (s : State) (w : Word) (changed : List Part) : s.KeptBut (s.setPC w) changed := by
  intro p _
  cases p with
  | regs => exact s.reg_setPC w
  | index => exact s.i_setPC w
  | stack => exact ⟨s.stack_setPC w, s.sp_setPC w⟩
  | display => exact fun c => congrArg (Frame.cell · c) (s.fb_setPC w)
  | delay => exact s.dt_setPC w
  | sound => exact s.st_setPC w
  | memory => exact fun a => congrArg (Memory.byte · a) (s.mem_setPC w)
  | run => exact s.run_setPC w
  | events => exact s.events_setPC w
  | inputs => exact ⟨s.inputs_setPC w, s.inputClock_setPC w⟩

/-- The form of every statement about an instruction that only moves PC. -/
theorem exists_next_of_exec_eq_setPC {i : Instr} {s : State} {w : Word} (h : exec i s = .next (s.setPC w)) :
    ∃ t, exec i s = .next t ∧ t.pc = w ∧ s.KeptBut t [] :=
  ⟨s.setPC w, h, s.pc_setPC w, s.keptBut_setPC w []⟩

/-! ### Jump targets -/

@[simp] theorem toNat_zextAddr (nnn : Addr12) : (zextAddr nnn).toNat = nnn.toNat :=
  BitVec.toNat_setWidth_of_le (by decide)

/-- The sum of BNNN is at most 0x10FE, so `trunc_16` never takes effect (R107). -/
theorem toNat_trunc16_addr_add_byte (nnn : Addr12) (b : Byte) :
    (trunc16 (nnn.toNat + b.toNat)).toNat = nnn.toNat + b.toNat := by
  have hn := nnn.isLt
  have hb := b.isLt
  rw [trunc16, BitVec.toNat_ofNat]
  exact Nat.mod_eq_of_lt (by omega)

/-! ### The additive skip (R93), its condition an equality or its negation -/

theorem State.skipIf_beq (s : State) (a b : Byte) :
    s.skipIf (a == b) = s.setPC (s.pc + (if a = b then 4 else 2)) := by
  by_cases h : a = b <;> simp [h]

theorem State.skipIf_bne (s : State) (a b : Byte) :
    s.skipIf (a != b) = s.setPC (s.pc + (if a = b then 2 else 4)) := by
  by_cases h : a = b <;> simp [h]

/-! ### The instructions, as writes of PC -/

section
variable (s : State) (nnn : Addr12) (x y : Reg) (nn : Byte)

theorem exec_jp : exec (.jp nnn) s = .next (s.setPC (zextAddr nnn)) := rfl

theorem exec_jpV0 : exec (.jpV0 nnn) s = .next (s.setPC (trunc16 (nnn.toNat + (s.reg 0).toNat))) := rfl

theorem exec_seImm : exec (.seImm x nn) s = .next (s.setPC (s.pc + (if s.reg x = nn then 4 else 2))) :=
  congrArg Host.Outcome.next (s.skipIf_beq (s.reg x) nn)

theorem exec_sneImm : exec (.sneImm x nn) s = .next (s.setPC (s.pc + (if s.reg x = nn then 2 else 4))) :=
  congrArg Host.Outcome.next (s.skipIf_bne (s.reg x) nn)

theorem exec_seReg : exec (.seReg x y) s = .next (s.setPC (s.pc + (if s.reg x = s.reg y then 4 else 2))) :=
  congrArg Host.Outcome.next (s.skipIf_beq (s.reg x) (s.reg y))

theorem exec_sneReg : exec (.sneReg x y) s = .next (s.setPC (s.pc + (if s.reg x = s.reg y then 2 else 4))) :=
  congrArg Host.Outcome.next (s.skipIf_bne (s.reg x) (s.reg y))

end

/-! ### The obligations -/

/-- Settles O25: the jump writes the zero-extended address field to PC. -/
theorem jumpSetsPC : Obligations.JumpSetsPC := by
  intro s nnn
  obtain ⟨t, ht, hpc, hkept⟩ := exists_next_of_exec_eq_setPC (exec_jp s nnn)
  exact ⟨t, ht, hpc ▸ toNat_zextAddr nnn, hkept⟩

/-- Settles O26: the sum of the address field and V0 fits into PC. -/
theorem indexedJumpAddsV0 : Obligations.IndexedJumpAddsV0 := by
  intro s nnn
  obtain ⟨t, ht, hpc, hkept⟩ := exists_next_of_exec_eq_setPC (exec_jpV0 s nnn)
  exact ⟨t, ht, hpc ▸ toNat_trunc16_addr_add_byte nnn (s.reg 0), hkept⟩

/-- Settles O27: each of the four skips is one write of PC, by 4 or by 2 as its condition says. -/
theorem registerSkipsAreAdditive : Obligations.RegisterSkipsAreAdditive := fun s x y nn =>
  ⟨exists_next_of_exec_eq_setPC (exec_seImm s x nn), exists_next_of_exec_eq_setPC (exec_sneImm s x nn),
    exists_next_of_exec_eq_setPC (exec_seReg s x y), exists_next_of_exec_eq_setPC (exec_sneReg s x y)⟩

end Sys2Proof.Machine

/-! PROOFS. The loads and the immediate add (spec/42_alu.md R111 to R113): each is one write of a register and the
advance of PC, which keep every other register and every other part of the state. -/

namespace Sys2Proof.Machine

/-! ### What stays as it was, over two updates in turn -/

theorem State.Kept.trans {s t u : State} {p : Part} (hst : s.Kept t p) (htu : t.Kept u p) : s.Kept u p := by
  cases p with
  | regs => exact fun r => (htu r).trans (hst r)
  | display => exact fun c => (htu c).trans (hst c)
  | memory => exact fun a => (htu a).trans (hst a)
  | stack | inputs => exact ⟨htu.1.trans hst.1, htu.2.trans hst.2⟩
  | index | delay | sound | run | events => exact Eq.trans htu hst

theorem State.KeptBut.trans {s t u : State} {changed : List Part} (hst : s.KeptBut t changed)
    (htu : t.KeptBut u changed) : s.KeptBut u changed :=
  fun p hp => (hst p hp).trans (htu p hp)

/-! ### A write of one register -/

theorem State.keptBut_setReg (s : State) (x : Reg) (b : Byte) : s.KeptBut (s.setReg x b) [.regs] := by
  intro p hp
  cases p with
  | regs => exact absurd (List.mem_singleton_self _) hp
  | index => exact s.i_setReg x b
  | stack => exact ⟨s.stack_setReg x b, s.sp_setReg x b⟩
  | display => exact fun c => congrArg (Frame.cell · c) (s.fb_setReg x b)
  | delay => exact s.dt_setReg x b
  | sound => exact s.st_setReg x b
  | memory => exact fun a => congrArg (Memory.byte · a) (s.mem_setReg x b)
  | run => exact s.run_setReg x b
  | events => exact s.events_setReg x b
  | inputs => exact ⟨s.inputs_setReg x b, s.inputClock_setReg x b⟩

theorem State.regsKeptBut_setReg (s : State) (x : Reg) (b : Byte) : s.RegsKeptBut (s.setReg x b) [x] :=
  fun r hr => (s.reg_setReg x r b).trans (if_neg fun h => hr (List.mem_singleton.mpr h))

/-- The form of every statement about an instruction that writes one register and advances PC. -/
theorem exists_next_of_exec_eq_setReg_advance {i : Instr} {s : State} {x : Reg} {b : Byte}
    (h : exec i s = .next (s.setReg x b).advance) :
    ∃ t, exec i s = .next t ∧ t.reg x = b ∧ t.pc = s.pc + 2 ∧ s.RegsKeptBut t [x] ∧ s.KeptBut t [.regs] :=
  ⟨_, h, (s.reg_setReg x x b).trans (if_pos rfl), rfl, s.regsKeptBut_setReg x b,
    (s.keptBut_setReg x b).trans (State.keptBut_setPC _ _ _)⟩

/-! ### The instructions, as writes of one register -/

section
variable (s : State) (x y : Reg) (nn : Byte)

theorem exec_ldImm : exec (.ldImm x nn) s = .next (s.setReg x nn).advance := rfl

theorem exec_addImm : exec (.addImm x nn) s = .next (s.setReg x (trunc8 ((s.reg x).toNat + nn.toNat))).advance := rfl

theorem exec_ldReg : exec (.ldReg x y) s = .next (s.setReg x (s.reg y)).advance := rfl

end

theorem toNat_trunc8 (n : Nat) : (trunc8 n).toNat = n % 256 := BitVec.toNat_ofNat n 8

/-! ### The obligation -/

/-- Settles O32: each of the three is one write of V[X] and the advance of PC, and VF is a register like any other. -/
theorem loadsAndAddImmediate : Obligations.LoadsAndAddImmediate := by
  intro s x y nn
  obtain ⟨t, ht, hsum, hrest⟩ := exists_next_of_exec_eq_setReg_advance (exec_addImm s x nn)
  exact ⟨exists_next_of_exec_eq_setReg_advance (exec_ldImm s x nn), ⟨t, ht, hsum ▸ toNat_trunc8 _, hrest⟩,
    exists_next_of_exec_eq_setReg_advance (exec_ldReg s x y)⟩

end Sys2Proof.Machine

/-! PROOFS. The end of a cycle (spec/60_exceptions.md R162): the countdown of one timer in numbers, and the parts
that the tick and the next inputs leave as they were. -/

namespace Sys2Proof.Machine

/-! ### The countdown of a timer, in numbers -/

theorem zero_lt_toNat_iff (b : Byte) : 0 < b.toNat ↔ b ≠ 0 :=
  b.toNat_pos.trans b.pos_iff_ne_zero

/-- A timer never wraps: it stops at 0, as the subtraction of natural numbers does. -/
theorem toNat_countdown (b : Byte) : (if b = 0 then 0 else b - 1).toNat = b.toNat - 1 := by
  split
  case isTrue h => rw [h]; rfl
  case isFalse h =>
    have hone : (1 : Byte) ≤ b := (zero_lt_toNat_iff b).mpr h
    exact BitVec.toNat_sub_of_le hone

/-! ### What the end of a cycle writes, and what it keeps -/

section
variable {s : State} (h : s.run = .running)
include h

theorem State.toNat_dt_endCycle : s.endCycle.dt.toNat = s.dt.toNat - 1 := by
  rw [endCycle_of_running h, dt_nextInputs, dt_tick, toNat_countdown]

theorem State.toNat_st_endCycle : s.endCycle.st.toNat = s.st.toNat - 1 := by
  rw [endCycle_of_running h, st_nextInputs, st_tick, toNat_countdown]

theorem State.events_endCycle :
    s.endCycle.events = if 0 < s.st.toNat then .beep :: s.events else s.events := by
  rw [endCycle_of_running h, events_nextInputs, events_tick]
  simp only [zero_lt_toNat_iff, ne_eq, ite_not]

end

theorem State.keptBut_endCycle (s : State) : s.KeptBut s.endCycle [.delay, .sound, .events, .inputs] := by
  intro p hp
  cases p with
  | regs => exact s.reg_endCycle
  | index => exact s.i_endCycle
  | stack => exact ⟨s.stack_endCycle, s.sp_endCycle⟩
  | display => exact fun c => congrArg (Frame.cell · c) s.fb_endCycle
  | memory => exact fun a => congrArg (Memory.byte · a) s.mem_endCycle
  | run => exact s.run_endCycle
  | delay | sound | events | inputs => exact absurd hp (by decide)

/-! ### The obligation -/

/-- Settles O10: a running machine's cycle ends with the tick, each timer counted down and a Beep where ST was not 0. -/
theorem endOfCycleTicks : Obligations.EndOfCycleTicks := fun t h =>
  ⟨State.toNat_dt_endCycle h, State.toNat_st_endCycle h, State.events_endCycle h, t.pc_endCycle, t.keptBut_endCycle⟩

end Sys2Proof.Machine

/-! PROOFS. What stays as it was over the updates of the state, one rule for each, and how the rules compose. -/

namespace Sys2Proof.Machine

/-! ### Composition -/

theorem State.KeptBut.refl (s : State) (changed : List Part) : s.KeptBut s changed := by
  intro p _
  cases p <;> simp [State.Kept]

theorem State.KeptBut.mono {s t : State} {changed more : List Part} (h : s.KeptBut t changed)
    (hsub : changed ⊆ more) : s.KeptBut t more :=
  fun p hp => h p fun hc => hp (hsub hc)

/-- Two updates in turn change what either of them changes. -/
theorem State.KeptBut.append {s t u : State} {first second : List Part} (hst : s.KeptBut t first)
    (htu : t.KeptBut u second) : s.KeptBut u (first ++ second) :=
  (hst.mono (List.subset_append_left _ _)).trans (htu.mono (List.subset_append_right _ _))

theorem State.KeptBut.setPC {s t : State} {changed : List Part} (h : s.KeptBut t changed) (w : Word) :
    s.KeptBut (t.setPC w) changed :=
  h.trans (t.keptBut_setPC w changed)

theorem State.KeptBut.advance {s t : State} {changed : List Part} (h : s.KeptBut t changed) :
    s.KeptBut t.advance changed :=
  h.setPC _

/-! ### One rule per update -/

section
variable (s : State)

theorem State.keptBut_setI (w : Word) : s.KeptBut (s.setI w) [.index] := by
  intro p hp
  cases p <;> simp_all [State.Kept]

theorem State.keptBut_setDT (b : Byte) : s.KeptBut (s.setDT b) [.delay] := by
  intro p hp
  cases p <;> simp_all [State.Kept]

theorem State.keptBut_setST (b : Byte) : s.KeptBut (s.setST b) [.sound] := by
  intro p hp
  cases p <;> simp_all [State.Kept]

theorem State.keptBut_setFB (f : Frame) : s.KeptBut (s.setFB f) [.display] := by
  intro p hp
  cases p <;> simp_all [State.Kept]

theorem State.keptBut_emit (e : Event) : s.KeptBut (s.emit e) [.events] := by
  intro p hp
  cases p <;> simp_all [State.Kept]

theorem State.keptBut_storeBlock (bs : List Byte) : s.KeptBut (s.storeBlock bs) [.memory] := by
  intro p hp
  cases p <;> simp_all [State.Kept]

theorem State.keptBut_loadBlock (n : Nat) : s.KeptBut (s.loadBlock n) [.regs] := by
  intro p hp
  cases p <;> simp_all [State.Kept]

theorem State.keptBut_takeFault (c : Cause) : s.KeptBut (s.takeFault c) [.run, .events] := by
  intro p hp
  cases p <;> simp_all [State.Kept]

theorem State.keptBut_setRegFlag (x : Reg) (b f : Byte) : s.KeptBut (s.setRegFlag x b f) [.regs] :=
  (s.keptBut_setReg x b).trans ((s.setReg x b).keptBut_setReg VF f)

theorem State.keptBut_withStack (stack : Vector Word 16) (sp : Fin 17) :
    s.KeptBut { s with stack := stack, sp := sp } [.stack] := by
  intro p hp
  cases p <;> simp_all [State.Kept, State.reg]

theorem State.haltsWith_takeFault (c : Cause) : s.HaltsWith (s.takeFault c) c :=
  ⟨rfl, rfl, rfl, s.keptBut_takeFault c⟩

end

/-! ### Registers -/

theorem State.regsKeptBut_of_v_eq {s t : State} (h : t.v = s.v) (changed : List Reg) : s.RegsKeptBut t changed :=
  fun r _ => s.reg_eq_of_v h r

theorem State.regsKeptBut_setRegFlag (s : State) (x : Reg) (b f : Byte) :
    s.RegsKeptBut (s.setRegFlag x b f) [x, VF] := by
  intro r hr
  obtain ⟨hx, hf⟩ : r ≠ x ∧ r ≠ VF := by simpa using hr
  simp [hx, hf]

end Sys2Proof.Machine

/-! PROOFS. What an instruction does, said once for all 34: it takes the fault that spec/60_exceptions.md R150
lists for it, or it completes. -/

namespace Sys2Proof.Machine

/-- The fault an instruction takes instead of completing, if any (R153 to R155). -/
def State.faultOf? (s : State) : Instr → Option Cause
  | .ret => if s.sp = 0 then some (.stackUnderflow s.pc) else none
  | .call _ => if s.sp = 16 then some (.stackOverflow s.pc) else none
  | .drw _ _ n => s.dataFault? n
  | .bcd _ => s.dataFault? 3
  | .store x | .load x => s.dataFault? (x.val + 1)
  | _ => none

/-- The newest pending call site (R25). -/
def State.newestCall (s : State) : Word := s.stack[s.sp.val - 1]'(by have := s.sp.isLt; omega)

/-- The state an instruction leaves when it takes no fault. -/
def State.completed (s : State) : Instr → State
  | .cls => (s.setFB Frame.clear).present.advance
  | .ret => { s with sp := s.sp - 1 }.setPC (s.newestCall + 2)
  | .jp nnn => s.setPC (zextAddr nnn)
  | .call nnn => { s with stack := s.stack.setIfInBounds s.sp.val s.pc, sp := s.sp + 1 }.setPC (zextAddr nnn)
  | .seImm x nn => s.skipIf (s.reg x == nn)
  | .sneImm x nn => s.skipIf (s.reg x != nn)
  | .seReg x y => s.skipIf (s.reg x == s.reg y)
  | .ldImm x nn => (s.setReg x nn).advance
  | .addImm x nn => (s.setReg x (trunc8 ((s.reg x).toNat + nn.toNat))).advance
  | .ldReg x y => (s.setReg x (s.reg y)).advance
  | .orReg x y => (s.setReg x (s.reg x ||| s.reg y)).advance
  | .andReg x y => (s.setReg x (s.reg x &&& s.reg y)).advance
  | .xorReg x y => (s.setReg x (s.reg x ^^^ s.reg y)).advance
  | .addReg x y =>
    (s.setRegFlag x (trunc8 ((s.reg x).toNat + (s.reg y).toNat)) (carryFlag (s.reg x) (s.reg y))).advance
  | .subReg x y =>
    (s.setRegFlag x (trunc8 ((s.reg x).toNat + 256 - (s.reg y).toNat)) (noBorrowFlag (s.reg x) (s.reg y))).advance
  | .shr x _ => (s.setRegFlag x (s.reg x >>> 1) (shrFlag (s.reg x))).advance
  | .subnReg x y =>
    (s.setRegFlag x (trunc8 ((s.reg y).toNat + 256 - (s.reg x).toNat)) (noBorrowFlag (s.reg y) (s.reg x))).advance
  | .shl x _ => (s.setRegFlag x (s.reg x <<< 1) (shlFlag (s.reg x))).advance
  | .sneReg x y => s.skipIf (s.reg x != s.reg y)
  | .ldI nnn => (s.setI (zextAddr nnn)).advance
  | .jpV0 nnn => s.setPC (trunc16 (nnn.toNat + (s.reg 0).toNat))
  | .rnd x nn => (s.setReg x (s.rnd &&& nn)).advance
  | .drw x y n =>
    ((s.setFB (s.drawn x y n).1).setReg VF (collisionFlag (s.drawn x y n).2)).present.advance
  | .skp x => s.skipIf (s.pressed (s.reg x))
  | .sknp x => s.skipIf (!s.pressed (s.reg x))
  | .ldFromDT x => (s.setReg x s.dt).advance
  | .ldKey x => s.key.elim s fun k => (s.setReg x (zextKey k)).advance
  | .ldDT x => (s.setDT (s.reg x)).advance
  | .ldST x => (s.setST (s.reg x)).advance
  | .addI x => (s.setI (trunc16 (s.i.toNat + (s.reg x).toNat))).advance
  | .ldFont x => (s.setI (trunc16 (glyphAddr (s.reg x)))).advance
  | .bcd x => (s.storeBlock (decimalDigits (s.reg x))).advance
  | .store x => (s.storeBlock (s.regs (x.val + 1))).advance
  | .load x => ((s.loadBlock (x.val + 1)).setI (trunc16 (s.dataAddr (x.val + 1)))).advance

/-- The state an instruction leaves: that of its fault, or the completed one. -/
def State.executed (s : State) (i : Instr) : State := (s.faultOf? i).elim (s.completed i) s.takeFault

/-! ### The meaning of an instruction is this state -/

theorem State.withData_eq (s : State) (n : Nat) (done : State) :
    s.withData n done = .next ((s.dataFault? n).elim done s.takeFault) := by
  unfold withData
  cases s.dataFault? n <;> rfl

theorem execRet_eq (s : State) : execRet s = .next (s.executed .ret) := by
  unfold execRet
  obtain ⟨hsp, hpop⟩ | ⟨hpos, hpop⟩ := s.pop?_cases
  · simp [hpop, State.executed, State.faultOf?, hsp]
  · have hne : s.sp ≠ 0 := fun h => by simp [h] at hpos
    have hpred : (⟨s.sp.val - 1, by omega⟩ : Fin 17) = s.sp - 1 :=
      Fin.ext (Fin.val_sub_one_of_ne_zero hne).symm
    simp [hpop, State.executed, State.faultOf?, hne, hpred, State.completed, State.newestCall]

theorem execCall_eq (nnn : Addr12) (s : State) : execCall nnn s = .next (s.executed (.call nnn)) := by
  unfold execCall
  obtain ⟨hsp, hpush⟩ | ⟨hlt, hpush⟩ := s.push?_cases s.pc
  · simp [hpush, State.executed, State.faultOf?, hsp]
  · have hne : s.sp ≠ 16 := fun h => by simp [h] at hlt
    have hsucc : (⟨s.sp.val + 1, by omega⟩ : Fin 17) = s.sp + 1 := Fin.ext (Fin.val_add_one_of_lt hlt).symm
    have hset : s.stack.setIfInBounds s.sp.val s.pc = s.stack.set s.sp.val s.pc hlt :=
      Vector.ext fun k _ => by rw [Vector.getElem_setIfInBounds, Vector.getElem_set]
    simp [hpush, State.executed, State.faultOf?, hne, hsucc, State.completed, hset]

theorem execLdKey_eq (x : Reg) (s : State) : execLdKey x s = .next (s.executed (.ldKey x)) := by
  unfold execLdKey State.executed State.faultOf? State.completed
  cases s.key <;> rfl

theorem exec_eq (i : Instr) (s : State) : exec i s = .next (s.executed i) := by
  cases i with
  | ret => exact execRet_eq s
  | call nnn => exact execCall_eq nnn s
  | ldKey x => exact execLdKey_eq x s
  | drw x y n => exact s.withData_eq n _
  | bcd x => exact s.withData_eq 3 _
  | store x | load x => exact s.withData_eq (x.val + 1) _
  | _ => rfl

theorem exec_of_faults {i : Instr} {s : State} {c : Cause} (h : s.faultOf? i = some c) :
    exec i s = .next (s.takeFault c) := by
  rw [exec_eq, State.executed, h, Option.elim_some]

theorem exec_of_completes {i : Instr} {s : State} (h : s.faultOf? i = none) : exec i s = .next (s.completed i) := by
  rw [exec_eq, State.executed, h, Option.elim_none]

/-- An instruction that answers a next state either takes its fault or completes. -/
theorem exec_cases {i : Instr} {s t : State} (h : exec i s = .next t) :
    (∃ c, s.faultOf? i = some c ∧ t = s.takeFault c) ∨ (s.faultOf? i = none ∧ t = s.completed i) := by
  cases hf : s.faultOf? i with
  | some c => exact .inl ⟨c, rfl, Host.Outcome.next.inj (h.symm.trans (exec_of_faults hf))⟩
  | none => exact .inr ⟨rfl, Host.Outcome.next.inj (h.symm.trans (exec_of_completes hf))⟩

/-- FX0A completes in one of two ways (R144). -/
theorem State.completed_ldKey_cases (s : State) (x : Reg) :
    (∃ k, s.key = some k ∧ s.completed (.ldKey x) = (s.setReg x (zextKey k)).advance) ∨
    (s.key = none ∧ s.completed (.ldKey x) = s) := by
  unfold State.completed
  cases s.key with
  | some k => exact .inl ⟨k, rfl, rfl⟩
  | none => exact .inr ⟨rfl, rfl⟩

/-! ### What an instruction keeps, and which registers it writes -/

section
variable (s : State)

theorem State.keptBut_skipIf (b : Bool) (changed : List Part) : s.KeptBut (s.skipIf b) changed :=
  s.keptBut_setPC _ changed

theorem State.keptBut_completed (i : Instr) : s.KeptBut (s.completed i) (.regs :: writtenParts i) := by
  cases i with
  | cls => exact ((s.keptBut_setFB _).append (State.keptBut_emit _ _)).advance.mono (by simp [writtenParts])
  | drw x y n =>
    exact (((s.keptBut_setFB _).append (State.keptBut_setReg _ _ _)).append
      (State.keptBut_emit _ _)).advance.mono (by simp [writtenParts])
  | ret | call nnn => exact ((s.keptBut_withStack _ _).setPC _).mono (by simp [writtenParts])
  | jp nnn | jpV0 nnn => exact s.keptBut_setPC _ _
  | seImm x nn | sneImm x nn | seReg x y | sneReg x y | skp x | sknp x => exact s.keptBut_skipIf _ _
  | ldImm x nn | addImm x nn | ldReg x y | orReg x y | andReg x y | xorReg x y | rnd x nn | ldFromDT x =>
    exact (s.keptBut_setReg _ _).advance
  | addReg x y | subReg x y | shr x y | subnReg x y | shl x y => exact (s.keptBut_setRegFlag _ _ _).advance
  | ldKey x =>
    obtain ⟨k, -, h⟩ | ⟨-, h⟩ := s.completed_ldKey_cases x <;> rw [h]
    · exact (s.keptBut_setReg _ _).advance
    · exact .refl s _
  | ldI nnn | addI x | ldFont x => exact (s.keptBut_setI _).advance.mono (by simp [writtenParts])
  | ldDT x => exact (s.keptBut_setDT _).advance.mono (by simp [writtenParts])
  | ldST x => exact (s.keptBut_setST _).advance.mono (by simp [writtenParts])
  | bcd x | store x => exact (s.keptBut_storeBlock _).advance.mono (by simp [writtenParts])
  | load x =>
    exact ((s.keptBut_loadBlock _).append (State.keptBut_setI _ _)).advance.mono (by simp [writtenParts])

theorem State.regsKeptBut_completed (i : Instr) : s.RegsKeptBut (s.completed i) (writtenRegs i) := by
  cases i with
  | ldImm x nn | addImm x nn | ldReg x y | orReg x y | andReg x y | xorReg x y | rnd x nn | ldFromDT x =>
    exact s.regsKeptBut_setReg x _
  | addReg x y | subReg x y | shr x y | subnReg x y | shl x y => exact s.regsKeptBut_setRegFlag x _ _
  | drw x y n => exact (s.setFB _).regsKeptBut_setReg VF _
  | ldKey x =>
    obtain ⟨k, -, h⟩ | ⟨-, h⟩ := s.completed_ldKey_cases x <;> rw [h]
    · exact s.regsKeptBut_setReg x _
    · exact State.regsKeptBut_of_v_eq rfl _
  | load x =>
    intro r hr
    have hlt : ¬ r.val < x.val + 1 := fun h =>
      hr (List.mem_filter.mpr ⟨List.mem_finRange r, decide_eq_true (Nat.lt_succ_iff.mp h)⟩)
    exact (s.reg_loadBlock _ r).trans (if_neg hlt)
  | _ => exact State.regsKeptBut_of_v_eq rfl _

theorem State.keptBut_of_faultOf? {i : Instr} {c : Cause} (h : s.faultOf? i = some c) :
    s.KeptBut (s.takeFault c) (.regs :: writtenParts i) := by
  cases i with
  | ret | call nnn | drw x y n | bcd x | store x | load x =>
    exact (s.keptBut_takeFault c).mono (by simp [writtenParts])
  | _ => cases h

end

/-! ### The obligations -/

/-- Settles O22: a fault writes no register, and the completing instruction those of its row. -/
theorem registersWrittenAreThoseListed : Obligations.RegistersWrittenAreThoseListed := by
  intro i s t h
  obtain ⟨c, -, rfl⟩ | ⟨-, rfl⟩ := exec_cases h
  · exact State.regsKeptBut_of_v_eq (s.v_takeFault c) _
  · exact s.regsKeptBut_completed i

/-- Settles O23: every instruction is a chain of updates, each of which changes one part of its row. -/
theorem partsWrittenAreThoseListed : Obligations.PartsWrittenAreThoseListed := by
  intro i s t h
  obtain ⟨c, hc, rfl⟩ | ⟨-, rfl⟩ := exec_cases h
  · exact s.keptBut_of_faultOf? hc
  · exact s.keptBut_completed i

/-! ### The inputs are read where they are sampled, and nowhere else -/

section
variable {s : State} {inputs : List Input} {clock : Nat} (i : Instr)

theorem State.faultOf?_withInputs : (s.withInputs inputs clock).faultOf? i = s.faultOf? i := by
  cases i <;> rfl

theorem State.pressed_of_key_eq {s t : State} (h : t.key = s.key) (b : Byte) : t.pressed b = s.pressed b := by
  rw [pressed, pressed, h]

theorem State.completed_withInputs
    (hkey : samplesKey i = true → (s.withInputs inputs clock).key = s.key)
    (hrnd : samplesRnd i = true → (s.withInputs inputs clock).rnd = s.rnd) :
    (s.withInputs inputs clock).completed i = (s.completed i).withInputs inputs clock := by
  cases i with
  | skp x | sknp x =>
    simp only [State.completed, State.pressed_of_key_eq (hkey rfl)]
    rfl
  | ldKey x =>
    simp only [State.completed, hkey rfl]
    cases s.key <;> rfl
  | rnd x nn =>
    simp only [State.completed, hrnd rfl]
    rfl
  | _ => rfl

end

/-- Settles O24: neither the fault nor the completed state depends on an input that the instruction does not sample. -/
theorem inputsMatterOnlyWhereSampled : Obligations.InputsMatterOnlyWhereSampled := by
  intro i s t inputs clock hkey hrnd h
  obtain ⟨c, hc, rfl⟩ | ⟨hn, rfl⟩ := exec_cases h
  · exact exec_of_faults ((State.faultOf?_withInputs i).trans hc)
  · rw [exec_of_completes ((State.faultOf?_withInputs i).trans hn), State.completed_withInputs i hkey hrnd]

end Sys2Proof.Machine

/-! PROOFS. What a running machine's cycle can do (spec/40_cycle.md R91): halt with a fault of spec/60_exceptions.md
R150 and change nothing else, or complete an instruction and tick. -/

namespace Sys2Proof.Machine

/-! ### The instruction a cycle executes -/

/-- A state executes one instruction at most. -/
theorem State.Executes.unique {s : State} {i j : Instr} (hi : s.Executes i) (hj : s.Executes j) : i = j := by
  obtain ⟨-, w, hw, hi⟩ := State.executes_iff.mp hi
  obtain ⟨-, w', hw', hj⟩ := State.executes_iff.mp hj
  obtain rfl : w = w' := Option.some.inj (hw.symm.trans hw')
  exact Except.ok.inj (hi.symm.trans hj)

theorem step_of_executes {s : State} {i : Instr} (h : s.Executes i) : step s = .next (s.executed i).endCycle := by
  obtain ⟨hr, w, hf, hd⟩ := State.executes_iff.mp h
  exact step_of_decoded hr hf hd (exec_eq i s)

theorem step_of_executes_of_completes {s : State} {i : Instr} (h : s.Executes i) (hn : s.faultOf? i = none) :
    step s = .next (s.completed i).endCycle := by
  rw [step_of_executes h, State.executed, hn, Option.elim_none]

/-! ### The two ends of a cycle -/

/-- The cycle from `s` takes the fault `c`, of the fetch, of the decoder, or of the instruction. -/
def State.CycleFault (s : State) (c : Cause) : Prop :=
  (4094 < s.pc.toNat ∧ c = .fetchOutOfRange s.pc) ∨
  (s.pc.toNat ≤ 4094 ∧ ∃ w r, s.fetch? = some w ∧ decodeWord w = .error r ∧ c = .decodeFailure s.pc w) ∨
  ∃ i, s.Executes i ∧ s.faultOf? i = some c

/-- A running machine's cycle either takes a fault or completes the instruction it executes. -/
theorem cycle_cases {s t : State} (hr : s.run = .running) (h : step s = .next t) :
    (∃ c, s.CycleFault c ∧ t = s.takeFault c) ∨
    ∃ i, s.Executes i ∧ s.faultOf? i = none ∧ t = (s.completed i).endCycle := by
  obtain ⟨c, hc, -⟩ | ⟨-, hpc, rfl⟩ | ⟨-, hpc, w, r, hf, hd, rfl⟩ | ⟨-, -, w, i, u, hf, hd, hu, rfl⟩ := step_cases h
  · exact absurd (hr.symm.trans hc) (by simp)
  · exact .inl ⟨_, .inl ⟨hpc, rfl⟩, rfl⟩
  · exact .inl ⟨_, .inr (.inl ⟨hpc, w, r, hf, hd, rfl⟩), rfl⟩
  · have hi : s.Executes i := State.executes_iff.mpr ⟨hr, w, hf, hd⟩
    obtain ⟨c, hc, rfl⟩ | ⟨hn, rfl⟩ := exec_cases hu
    · exact .inl ⟨c, .inr (.inr ⟨i, hi, hc⟩), State.endCycle_of_halted (s.run_takeFault c)⟩
    · exact .inr ⟨i, hi, hn, rfl⟩

/-! ### What the later parts of the cycle read of a completed instruction -/

/-- The instructions that present a frame (R135, R138). -/
def presents : Instr → Bool
  | .cls | .drw _ _ _ => true
  | _ => false

section
variable (s : State) (i : Instr)

theorem State.run_completed : (s.completed i).run = s.run := by
  cases i with
  | ldKey x => obtain ⟨k, -, h⟩ | ⟨-, h⟩ := s.completed_ldKey_cases x <;> simp [h]
  | _ => rfl

theorem State.inputs_completed : s.Kept (s.completed i) .inputs :=
  s.keptBut_completed i .inputs (by cases i <;> simp [writtenParts])

theorem State.st_completed (h : ∀ x, i ≠ .ldST x) : (s.completed i).st = s.st :=
  s.keptBut_completed i .sound (by cases i <;> simp_all [writtenParts])

theorem State.events_completed :
    (s.completed i).events = if presents i then .draw (s.completed i).fb :: s.events else s.events := by
  cases i with
  | ldKey x => obtain ⟨k, -, h⟩ | ⟨-, h⟩ := s.completed_ldKey_cases x <;> rw [h] <;> rfl
  | _ => rfl

end

/-! ### The faults of an instruction -/

theorem State.dataFault?_eq_some {s : State} {n : Nat} {c : Cause} (h : s.dataFault? n = some c) :
    1 ≤ n ∧ 4095 < s.dataAddr (n - 1) ∧ c = .addressOutOfRange s.pc (s.dataAddr (n - 1)) := by
  unfold dataFault? at h
  split at h
  · rename_i hout
    exact ⟨hout.1, hout.2, (Option.some.inj h).symm⟩
  · cases h

theorem State.faultOf?_ret_eq_some {s : State} {c : Cause} (h : s.faultOf? .ret = some c) :
    s.sp = 0 ∧ c = .stackUnderflow s.pc := by
  simpa [faultOf?, eq_comm] using h

theorem State.faultOf?_call_eq_some {s : State} {nnn : Addr12} {c : Cause} (h : s.faultOf? (.call nnn) = some c) :
    s.sp = 16 ∧ c = .stackOverflow s.pc := by
  simpa [faultOf?, eq_comm] using h

/-! ### Obligations about faults -/

/-- Settles O12: the fetch faults before anything else of the cycle. -/
theorem fetchOutOfRangeHalts : Obligations.FetchOutOfRangeHalts := fun s hr hpc =>
  ⟨_, step_of_fetch_none hr hpc, s.haltsWith_takeFault _⟩

/-- Settles O13: the word of the statement is the one the fetch forms of the two bytes. -/
theorem illegalWordHalts : Obligations.IllegalWordHalts := by
  intro s w r hr hpc hw hd
  have hfetch : s.fetch? = some w := by
    rw [State.fetch?_of_in hpc, Option.some.injEq]
    exact BitVec.eq_of_toNat_eq ((append_toNat _ _).trans hw.symm)
  exact ⟨_, step_of_illegal hr hfetch hd, s.haltsWith_takeFault _⟩

/-- Settles O14: a halted machine's cycle is the identity. -/
theorem haltedMachineChangesNothing : Obligations.HaltedMachineChangesNothing := fun _ _ h => step_of_halted h

/-- Settles O16: a cycle that completes leaves the machine running, so the halting one took a fault. -/
theorem faultsArePrecise : Obligations.FaultsArePrecise := by
  intro s t c hr hstep hc
  obtain ⟨d, -, rfl⟩ | ⟨i, -, -, rfl⟩ := cycle_cases hr hstep
  · obtain rfl : d = c := Run.halted.inj ((s.run_takeFault d).symm.trans hc)
    exact s.haltsWith_takeFault d
  · rw [State.run_endCycle, s.run_completed, hr] at hc
    cases hc

/-- Settles O17: the cause is that of the fetch, of the decoder, or of one of the six instructions that may fault. -/
theorem faultsAreThoseListed : Obligations.FaultsAreThoseListed := by
  intro s t c hr hstep hc
  obtain ⟨d, hd, rfl⟩ | ⟨i, -, -, rfl⟩ := cycle_cases hr hstep
  · obtain rfl : d = c := Run.halted.inj ((s.run_takeFault d).symm.trans hc)
    obtain hfetch | hdecode | ⟨i, hi, hf⟩ := hd
    · exact .inl hfetch
    · exact .inr (.inl hdecode)
    · refine .inr (.inr ?_)
      cases i with
      | call nnn =>
        obtain ⟨hsp, rfl⟩ := State.faultOf?_call_eq_some hf
        exact .inl ⟨nnn, hi, by simp [hsp], rfl⟩
      | ret =>
        obtain ⟨hsp, rfl⟩ := State.faultOf?_ret_eq_some hf
        exact .inr (.inl ⟨hi, by simp [hsp], rfl⟩)
      | drw x y n =>
        obtain ⟨hn, ha, rfl⟩ := State.dataFault?_eq_some hf
        exact .inr (.inr ⟨_, ha, rfl, .inl ⟨x, y, n, hi, hn, (Nat.add_sub_assoc hn _).symm⟩⟩)
      | bcd x =>
        obtain ⟨-, ha, rfl⟩ := State.dataFault?_eq_some hf
        exact .inr (.inr ⟨_, ha, rfl, .inr (.inl ⟨x, hi, rfl⟩)⟩)
      | store x =>
        obtain ⟨-, ha, rfl⟩ := State.dataFault?_eq_some hf
        exact .inr (.inr ⟨_, ha, rfl, .inr (.inr (.inl ⟨x, hi, rfl⟩))⟩)
      | load x =>
        obtain ⟨-, ha, rfl⟩ := State.dataFault?_eq_some hf
        exact .inr (.inr ⟨_, ha, rfl, .inr (.inr (.inr ⟨x, hi, rfl⟩))⟩)
      | _ => cases hf
  · rw [State.run_endCycle, s.run_completed, hr] at hc
    cases hc

/-! ### Obligations about cycles that complete -/

/-- Settles O9: the instruction's outcome is a next state, and the cycle ends after it. -/
theorem stepRunsTheDecodedInstruction : Obligations.StepRunsTheDecodedInstruction := fun s i hi _ =>
  ⟨s.executed i, exec_eq i s, step_of_executes hi⟩

/-- Settles O11: the end of the cycle takes one input, and a fault skips it. -/
theorem eachCycleTakesOneInput : Obligations.EachCycleTakesOneInput := by
  intro s t hr hstep
  obtain ⟨c, -, rfl⟩ | ⟨i, -, -, rfl⟩ := cycle_cases hr hstep
  · exact ⟨fun h => (by cases h), fun _ _ => s.keptBut_takeFault c .inputs (by decide)⟩
  · have hrun : (s.completed i).run = .running := (s.run_completed i).trans hr
    obtain ⟨hinputs, hclock⟩ := s.inputs_completed i
    refine ⟨fun _ => ?_, fun c hc => ?_⟩
    · simp [State.endCycle_of_running hrun, hinputs, hclock]
    · rw [State.run_endCycle, hrun] at hc
      cases hc

/-- Settles O15: each of the cycle's ends answers a next state, since every instruction does. -/
theorem everyCycleAnswers : Obligations.EveryCycleAnswers := by
  intro s
  cases hr : s.run with
  | halted c => exact ⟨_, step_of_halted hr⟩
  | running =>
    by_cases hpc : s.pc.toNat ≤ 4094
    · have hf := State.fetch?_of_in hpc
      cases hd : decodeWord (s.mem.byte s.pc.toNat ++ s.mem.byte (s.pc.toNat + 1)) with
      | error r => exact ⟨_, step_of_illegal hr hf hd⟩
      | ok i => exact ⟨_, step_of_decoded hr hf hd (exec_eq i s)⟩
    · exact ⟨_, step_of_fetch_none hr (by omega)⟩

/-- Settles O18: the instruction presents the frame, if it is one that does, and the tick then beeps, if it does. -/
theorem eventsOfACycle : Obligations.EventsOfACycle := by
  intro s t hr hstep
  obtain ⟨c, -, rfl⟩ | ⟨i, hi, -, rfl⟩ := cycle_cases hr hstep
  · exact .inl ⟨c, rfl, rfl⟩
  · have hrun : (s.completed i).run = .running := (s.run_completed i).trans hr
    refine .inr ⟨(State.run_endCycle _).trans hrun,
      if 0 < (s.completed i).st.toNat then [.beep] else [],
      if presents i then [.draw (s.completed i).endCycle.fb] else [], ?_, ?_, ?_, ?_⟩
    · rw [State.events_endCycle hrun, s.events_completed, State.fb_endCycle]
      split <;> split <;> rfl
    · split <;> simp
    · split <;> simp
    · have hpresents : presents i = true ↔ s.Executes .cls ∨ ∃ x y n, s.Executes (.drw x y n) := by
        constructor
        · intro h
          cases i with
          | cls => exact .inl hi
          | drw x y n => exact .inr ⟨x, y, n, hi⟩
          | _ => cases h
        · rintro (h | ⟨x, y, n, h⟩) <;> rw [hi.unique h] <;> rfl
      rw [← hpresents]
      split <;> simp_all

/-! ### Obligations about whole cycles of one instruction -/

theorem State.keptBut_nextInputs (s : State) : s.KeptBut s.nextInputs [.inputs] := by
  intro p hp
  cases p <;> simp_all [State.Kept]

theorem State.keptBut_endCycle_of_timers_zero {s : State} (hr : s.run = .running) (hdt : s.dt = 0) (hst : s.st = 0) :
    s.KeptBut s.endCycle [.inputs] := by
  have htick : s.tick = s := by simp [tick, tickDT, tickST, hdt, hst]
  rw [endCycle_of_running hr, htick]
  exact s.keptBut_nextInputs

/-- Settles O19: the jump writes the PC it had, and timers at 0 do not tick. -/
theorem jumpToItselfChangesNothing : Obligations.JumpToItselfChangesNothing := by
  intro s nnn hi hpc hdt hst
  have hself : zextAddr nnn = s.pc := BitVec.eq_of_toNat_eq ((toNat_zextAddr nnn).trans hpc.symm)
  have hend : (s.setPC (zextAddr nnn)).KeptBut (s.setPC (zextAddr nnn)).endCycle [.inputs] :=
    State.keptBut_endCycle_of_timers_zero (s := s.setPC _) hi.1 hdt hst
  exact ⟨_, step_of_executes_of_completes hi rfl, (State.pc_endCycle _).trans hself,
    (s.keptBut_setPC _ _).trans hend⟩

/-- Settles O51: the waiting instruction changes nothing, so the cycle is its end. -/
theorem waitingCycleTicks : Obligations.WaitingCycleTicks := by
  intro s x hi hkey
  have hsame : s.executed (.ldKey x) = s := by simp [State.executed, State.faultOf?, State.completed, hkey]
  obtain ⟨hdt, hst, hevents, hpc, hkept⟩ := endOfCycleTicks s hi.1
  exact ⟨s.endCycle, by rw [step_of_executes hi, hsame], hpc, hdt, hst, hevents, hkept⟩

/-- Settles O52: the tick counts down the timer the instruction has just set. -/
theorem timerSetThenTicks : Obligations.TimerSetThenTicks := by
  intro s x
  refine ⟨fun hi => ⟨_, step_of_executes hi, ?_, ?_⟩, fun hi => ⟨_, step_of_executes hi, ?_⟩⟩
  · exact State.toNat_st_endCycle hi.1
  · exact State.events_endCycle hi.1
  · exact State.toNat_dt_endCycle hi.1

/-! ### The sound timer over a run -/

/-- One completing cycle that does not set the sound timer counts it down, and beeps when it does. -/
theorem State.Completes.sound {s t : State} (h : s.Completes t) (hst : ∀ x, ¬ s.Executes (.ldST x)) :
    t.st.toNat = s.st.toNat - 1 ∧
    t.events.count .beep = s.events.count .beep + if 0 < s.st.toNat then 1 else 0 := by
  obtain ⟨hr, hstep, ht⟩ := h
  obtain ⟨c, -, rfl⟩ | ⟨i, hi, -, rfl⟩ := cycle_cases hr hstep
  · cases ht
  · have hrun : (s.completed i).run = .running := (s.run_completed i).trans hr
    have hkept : (s.completed i).st = s.st := s.st_completed i fun x hx => hst x (hx ▸ hi)
    refine ⟨by rw [State.toNat_st_endCycle hrun, hkept], ?_⟩
    have hdraw : (s.completed i).events.count .beep = s.events.count .beep := by
      rw [s.events_completed]
      split
      · exact List.count_cons_of_ne (by simp)
      · rfl
    rw [State.events_endCycle hrun, hkept, ← hdraw]
    split
    · exact List.count_cons_self
    · rfl

/-- Settles O53, by induction on the length of the run. -/
theorem soundTimerBeepsOncePerDecrement : Obligations.SoundTimerBeepsOncePerDecrement := by
  intro f m hrun
  induction m with
  | zero => simp
  | succ m ih =>
    obtain ⟨hst, hbeeps⟩ := ih fun k hk => hrun k (by omega)
    obtain ⟨hcompletes, hno⟩ := hrun m (by omega)
    obtain ⟨hst', hbeeps'⟩ := hcompletes.sound hno
    refine ⟨by omega, ?_⟩
    rw [hbeeps', hbeeps, hst]
    split <;> omega

end Sys2Proof.Machine

/-! PROOFS. The invariant (spec/10_state.md R24, R37): each of its four clauses over a completing instruction, over a
fault and over the end of a cycle, and after reset. -/

namespace Sys2Proof.Machine

/-! ### The four clauses over a completing instruction -/

section
variable {s : State} (i : Instr)

theorem State.mem_wf_completed (h : s.mem.wf) : (s.completed i).mem.wf := by
  cases i with
  | bcd x | store x => exact Memory.writeBlock_wf _ _ h
  | ldKey x => obtain ⟨k, -, e⟩ | ⟨-, e⟩ := s.completed_ldKey_cases x <;> rw [e] <;> exact h
  | _ => exact h

/-- Only CLS and DRW write the display, and both write 0 or 255 alone. -/
theorem State.cells_completed (h : ∀ c, s.fb.cell c = 0 ∨ s.fb.cell c = 255) (c : Cell) :
    (s.completed i).fb.cell c = 0 ∨ (s.completed i).fb.cell c = 255 := by
  cases i with
  | cls => exact .inl (Frame.cell_clear c)
  | drw x y n => exact Frame.flipAll_legal _ h c
  | ldKey x => obtain ⟨k, -, e⟩ | ⟨-, e⟩ := s.completed_ldKey_cases x <;> rw [e] <;> exact h c
  | _ => exact h c

theorem State.faultOf?_ret_eq_none : s.faultOf? .ret = none ↔ 0 < s.sp.val := by
  simp [faultOf?, Fin.pos_iff_ne_zero]

theorem State.faultOf?_call_eq_none {nnn : Addr12} : s.faultOf? (.call nnn) = none ↔ s.sp.val < 16 := by
  have := s.sp.isLt
  simp only [faultOf?, ite_eq_right_iff, reduceCtorEq, imp_false, Fin.ext_iff]
  show s.sp.val ≠ 16 ↔ _
  omega

theorem State.newestCall_le (h : ∀ k : Fin 16, k.val < s.sp.val → s.stack[k].toNat ≤ 4094) (hsp : 0 < s.sp.val) :
    s.newestCall.toNat ≤ 4094 :=
  h ⟨s.sp.val - 1, by have := s.sp.isLt; omega⟩ (Nat.sub_lt hsp Nat.one_pos)

/-- A call pushes the PC it was fetched at, and a return leaves fewer calls pending. -/
theorem State.calls_completed (hpc : s.pc.toNat ≤ 4094) (hn : s.faultOf? i = none)
    (h : ∀ k : Fin 16, k.val < s.sp.val → s.stack[k].toNat ≤ 4094) (k : Fin 16)
    (hk : k.val < (s.completed i).sp.val) : (s.completed i).stack[k].toNat ≤ 4094 := by
  cases i with
  | call nnn =>
    have hlt := State.faultOf?_call_eq_none.mp hn
    have hsucc : (s.sp + 1).val = s.sp.val + 1 := Fin.val_add_one_of_lt hlt
    have hk : k.val < s.sp.val + 1 := hsucc ▸ hk
    by_cases hnew : k.val = s.sp.val
    · simpa [State.completed, hnew] using hpc
    · have := h k (by omega)
      simpa [State.completed, Vector.getElem_setIfInBounds, Ne.symm hnew] using this
  | ret =>
    have hpos := State.faultOf?_ret_eq_none.mp hn
    have hpred : (s.sp - 1).val = s.sp.val - 1 := Fin.val_sub_one_of_ne_zero (Fin.pos_iff_ne_zero.mp hpos)
    have hk : k.val < s.sp.val - 1 := hpred ▸ hk
    exact h k (by omega)
  | ldKey x =>
    obtain ⟨k', -, e⟩ | ⟨-, e⟩ := s.completed_ldKey_cases x <;> rw [e] at hk ⊢ <;> exact h k hk
  | _ => exact h k hk

theorem toNat_add_le (a b : Word) : (a + b).toNat ≤ a.toNat + b.toNat := by
  rw [BitVec.toNat_add]
  exact Nat.mod_le _ _

/-- PC stays at most 0x10FE, the greatest target of BNNN (R24). -/
theorem State.pc_completed_le (h : s.Inv) (hpc : s.pc.toNat ≤ 4094) (hn : s.faultOf? i = none) :
    (s.completed i).pc.toNat ≤ 0x10FE := by
  have hnext (k : Word) (hk : k.toNat ≤ 4) : (s.pc + k).toNat ≤ 0x10FE := (toNat_add_le _ _).trans (by omega)
  cases i with
  | jp nnn | call nnn =>
    have := nnn.isLt
    exact (toNat_zextAddr nnn).trans_le (by omega)
  | jpV0 nnn =>
    have := nnn.isLt
    have := (s.reg 0).isLt
    exact (toNat_trunc16_addr_add_byte nnn (s.reg 0)).trans_le (by omega)
  | ret =>
    have hnewest := State.newestCall_le h.calls (State.faultOf?_ret_eq_none.mp hn)
    exact (toNat_add_le _ 2).trans (by simp; omega)
  | seImm x nn | sneImm x nn | seReg x y | sneReg x y | skp x | sknp x => exact hnext _ (by split <;> decide)
  | ldKey x =>
    obtain ⟨k', -, e⟩ | ⟨-, e⟩ := s.completed_ldKey_cases x <;> rw [e]
    · exact hnext 2 (by decide)
    · exact h.pc
  | _ => exact hnext 2 (by decide)

theorem State.Inv.completed (h : s.Inv) (hpc : s.pc.toNat ≤ 4094) (hn : s.faultOf? i = none) :
    (s.completed i).Inv :=
  ⟨State.mem_wf_completed i h.memory, State.cells_completed i h.cells, State.calls_completed i hpc hn h.calls,
    State.pc_completed_le i h hpc hn⟩

end

/-! ### The other ends of a cycle -/

theorem State.Inv.takeFault {s : State} (h : s.Inv) (c : Cause) : (s.takeFault c).Inv :=
  ⟨h.memory, h.cells, h.calls, h.pc⟩

theorem State.Inv.endCycle {s : State} (h : s.Inv) : s.endCycle.Inv := by
  obtain ⟨hmem, hcells, hcalls, hpc⟩ := h
  exact ⟨s.mem_endCycle ▸ hmem, s.fb_endCycle ▸ hcells, by simpa using hcalls, s.pc_endCycle ▸ hpc⟩

/-- Settles O20: a halted machine stays as it is, a fault writes none of the four parts, and a completing instruction
keeps each clause. -/
theorem stepKeepsTheInvariant : Obligations.StepKeepsTheInvariant := by
  intro s t h hstep
  cases hr : s.run with
  | halted c =>
    obtain rfl : s = t := Host.Outcome.next.inj ((step_of_halted hr).symm.trans hstep)
    exact h
  | running =>
    obtain ⟨c, -, rfl⟩ | ⟨i, hi, hn, rfl⟩ := cycle_cases hr hstep
    · exact h.takeFault c
    · obtain ⟨-, hpc, -⟩ := hi
      exact (h.completed i (by omega) hn).endCycle

/-! ### Reset -/

theorem State.reg_reset (r : Reg) : State.reset.reg r = 0 := by
  simp [State.reset, State.reg]

theorem State.stack_reset (k : Fin 16) : State.reset.stack[k] = 0 := by
  simp [State.reset]

theorem State.cell_reset (c : Cell) : State.reset.fb.cell c = 0 := Frame.cell_clear c

theorem Memory.initial_font (k : Nat) : Memory.initial (0x050 + k) = font.getD k 0 := by
  simp [Memory.initial, memFill]

theorem Memory.initial_fill {a : Nat} (ha : a < 0x050 ∨ 0x0A0 ≤ a) : Memory.initial a = 0 := by
  unfold initial
  split
  case isTrue hbase =>
    have hbase : 0x050 ≤ a := hbase
    have hlen : font.length ≤ a - 0x050 := by
      show 80 ≤ a - 0x050
      omega
    exact List.getD_eq_default _ _ hlen
  case isFalse => rfl

/-- Settles O6: the fields of R34, and memory from the glyph table and the fill. -/
theorem resetState : Obligations.ResetState :=
  ⟨State.reg_reset, rfl, rfl, rfl, State.stack_reset, State.cell_reset, rfl, rfl, rfl, rfl,
    fun k _ => Memory.initial_font k, fun _ => Memory.initial_fill⟩

/-- Settles O8: reset checks the length before it builds a machine. -/
theorem resetRefusesALongImage : Obligations.ResetRefusesALongImage := by
  intro img hlong
  obtain ⟨-, h⟩ | ⟨hfits, -⟩ := State.resetWith_cases img
  · exact h
  · omega

/-- The invariant after reset does not depend on which bytes the image wrote. -/
theorem State.inv_reset_withMem {m : Memory} (h : m.wf) : ({ State.reset with mem := m } : State).Inv where
  memory := h
  cells c := .inl (State.cell_reset c)
  calls k hk := absurd hk (Nat.not_lt_zero _)
  pc := by
    show State.reset.pc.toNat ≤ 0x10FE
    decide

/-- Settles O21: memory after reset lists nothing, no call is pending, and every cell is 0. -/
theorem resetMeetsTheInvariant : Obligations.ResetMeetsTheInvariant := State.inv_reset_withMem Memory.reset_wf

theorem State.keptBut_withMem (s : State) (m : Memory) : s.KeptBut { s with mem := m } [.memory] := by
  intro p hp
  cases p <;> simp_all [State.Kept, State.reg]

/-- Settles O7: the image is one block write, all of it inside memory. -/
theorem resetLoadsTheImage : Obligations.ResetLoadsTheImage := by
  intro img hfits
  obtain ⟨hlong, -⟩ | ⟨-, h⟩ := State.resetWith_cases img
  · omega
  · have hin : 0x200 + img.length ≤ 4096 := by omega
    refine ⟨_, h, fun k hk => ?_, fun a ha => ?_, rfl, State.reset.keptBut_withMem _,
      State.inv_reset_withMem (Memory.writeBlock_wf _ _ Memory.reset_wf)⟩
    · rw [Memory.byte_writeBlock _ _ _ _ hin, if_pos ⟨Nat.le_add_right _ _, Nat.add_lt_add_left hk _⟩,
        Nat.add_sub_cancel_left, List.getD_eq_getElem _ _ hk]
    · have hout : ¬ (0x200 ≤ a ∧ a < 0x200 + img.length) := by omega
      rw [Memory.byte_writeBlock _ _ _ _ hin, if_neg hout]
      rfl

end Sys2Proof.Machine

/-! PROOFS. The decoder and the encoder (spec/30_encoding.md R70 to R77). A word is put together again from its
fields; the encoder is the left inverse of the decoder and the decoder that of the encoder. -/

namespace Sys2Proof

/-! ### A word from its fields (R72) -/

section
variable {w : Word} {op : BitVec 4}

theorem formatA_fields (hop : fieldOp w = nibble op) : formatA op (fieldNNN w) = w := by
  have hop : w.toNat / 4096 = op.toNat := (fieldOp_val w).symm.trans (congrArg Fin.val hop)
  apply BitVec.eq_of_toNat_eq
  rw [formatA_toNat, fieldNNN_toNat, ← hop]
  omega

theorem formatXI_fields (hop : fieldOp w = nibble op) : formatXI op (fieldX w) (fieldNN w) = w := by
  have hop : w.toNat / 4096 = op.toNat := (fieldOp_val w).symm.trans (congrArg Fin.val hop)
  apply BitVec.eq_of_toNat_eq
  rw [formatXI_toNat, fieldX_val, fieldNN_toNat, ← hop]
  omega

theorem formatXY_fields {sel : BitVec 4} (hop : fieldOp w = nibble op) (hsel : fieldN w = nibble sel) :
    formatXY op (fieldX w) (fieldY w) sel = w := by
  have hop : w.toNat / 4096 = op.toNat := (fieldOp_val w).symm.trans (congrArg Fin.val hop)
  have hsel : w.toNat % 16 = sel.toNat := (fieldN_val w).symm.trans (congrArg Fin.val hsel)
  apply BitVec.eq_of_toNat_eq
  rw [formatXY_toNat, fieldX_val, fieldY_val, ← hop, ← hsel]
  omega

/-- Family E and F: the selector is a byte. -/
theorem formatXI_selector {sel : Byte} (hop : fieldOp w = nibble op) (hsel : (fieldNN w).toNat = sel.toNat) :
    formatXI op (fieldX w) sel = w := by
  rw [← BitVec.eq_of_toNat_eq hsel]
  exact formatXI_fields hop

end

/-! ### Decoding an encoded instruction -/

theorem decodeWord_encode {i : Instr} (h : i.wellFormed = true) : decodeWord (encode i) = .ok i := by
  cases i with
  | cls | ret => rfl
  | jp nnn | call nnn | ldI nnn | jpV0 nnn | seImm x nn | sneImm x nn | ldImm x nn | addImm x nn | rnd x nn
  | seReg x y | sneReg x y => simp [encode, decodeWord, nibble]
  | ldReg x y | orReg x y | andReg x y | xorReg x y | addReg x y | subReg x y | shr x y | subnReg x y | shl x y =>
    simp [encode, decodeWord, decode8, nibble]
  | drw x y n =>
    have hn : n < 16 := of_decide_eq_true h
    simp [encode, decodeWord, nibble, Nat.mod_eq_of_lt hn]
  | skp x | sknp x => simp [encode, decodeWord, decodeE, nibble]
  | ldFromDT x | ldKey x | ldDT x | ldST x | addI x | ldFont x | bcd x | store x | load x =>
    simp [encode, decodeWord, decodeF, nibble]

theorem decode_bytesOfWord_append {w : Word} {i : Instr} (h : decodeWord w = .ok i) (rest : List Byte) :
    decode (bytesOfWord w ++ rest) = .ok (i, rest) := by
  obtain ⟨hi, lo, hbytes, rfl⟩ := wordOfBytes_bytesOfWord w
  simp only [hbytes, List.cons_append, List.nil_append, decode, h]

/-- Settles O1: the two bytes of the encoding are put together to its word, which decodes to the instruction. -/
theorem encodeThenDecode : Obligations.EncodeThenDecode := fun _ rest h =>
  decode_bytesOfWord_append (decodeWord_encode h) rest

/-! ### Encoding a decoded instruction -/

section
variable {w : Word} {i : Instr}

theorem encode_of_decode8 (hop : fieldOp w = 0x8) (h : decode8 w = .ok i) : encode i = w ∧ i.wellFormed = true := by
  unfold decode8 at h
  split at h <;> cases h
  all_goals
    rename_i hsel
    exact ⟨formatXY_fields hop hsel, rfl⟩

theorem encode_of_decodeE (hop : fieldOp w = 0xE) (h : decodeE w = .ok i) : encode i = w ∧ i.wellFormed = true := by
  unfold decodeE at h
  split at h <;> cases h
  all_goals
    rename_i hsel
    exact ⟨formatXI_selector hop hsel, rfl⟩

theorem encode_of_decodeF (hop : fieldOp w = 0xF) (h : decodeF w = .ok i) : encode i = w ∧ i.wellFormed = true := by
  unfold decodeF at h
  split at h <;> cases h
  all_goals
    rename_i hsel
    exact ⟨formatXI_selector hop hsel, rfl⟩

end

/-- Settles O2: each family's word is put together again from the fields the decoder read. -/
theorem decodeThenEncode : Obligations.DecodeThenEncode := by
  intro w i h
  unfold decodeWord at h
  split at h
  case h_1 hop =>
    split_ifs at h with hcls hret
    · cases h
      exact ⟨hcls.symm, rfl⟩
    · cases h
      exact ⟨hret.symm, rfl⟩
  case h_2 hop | h_3 hop | h_11 hop | h_12 hop =>
    cases h
    exact ⟨formatA_fields hop, rfl⟩
  case h_4 hop | h_5 hop | h_7 hop | h_8 hop | h_13 hop =>
    cases h
    exact ⟨formatXI_fields hop, rfl⟩
  case h_6 hop | h_10 hop =>
    split_ifs at h with hsel
    cases h
    exact ⟨formatXY_fields hop hsel, rfl⟩
  case h_9 hop => exact encode_of_decode8 hop h
  case h_14 hop =>
    cases h
    have hn := (fieldN w).isLt
    have hsel : fieldN w = nibble (BitVec.ofNat 4 (fieldN w).val) := (nibble_ofNat _).symm
    exact ⟨formatXY_fields hop hsel, decide_eq_true hn⟩
  case h_15 hop => exact encode_of_decodeE hop h
  case h_16 =>
    -- the one value the fifteen arms before it leave
    have hop : fieldOp w = 0xF := by
      clear h
      grind
    exact encode_of_decodeF hop h

/-! ### The opcode map (R76) -/

theorem Laws.OpcodeMap.all (i : Instr) : Laws.OpcodeMap.Statement i := by
  cases i with
  | cls => exact OpcodeMap.cls
  | ret => exact OpcodeMap.ret
  | jp nnn => exact OpcodeMap.jp nnn
  | call nnn => exact OpcodeMap.call nnn
  | seImm x nn => exact OpcodeMap.seImm x nn
  | sneImm x nn => exact OpcodeMap.sneImm x nn
  | seReg x y => exact OpcodeMap.seReg x y
  | ldImm x nn => exact OpcodeMap.ldImm x nn
  | addImm x nn => exact OpcodeMap.addImm x nn
  | ldReg x y => exact OpcodeMap.ldReg x y
  | orReg x y => exact OpcodeMap.orReg x y
  | andReg x y => exact OpcodeMap.andReg x y
  | xorReg x y => exact OpcodeMap.xorReg x y
  | addReg x y => exact OpcodeMap.addReg x y
  | subReg x y => exact OpcodeMap.subReg x y
  | shr x y => exact OpcodeMap.shr x y
  | subnReg x y => exact OpcodeMap.subnReg x y
  | shl x y => exact OpcodeMap.shl x y
  | sneReg x y => exact OpcodeMap.sneReg x y
  | ldI nnn => exact OpcodeMap.ldI nnn
  | jpV0 nnn => exact OpcodeMap.jpV0 nnn
  | rnd x nn => exact OpcodeMap.rnd x nn
  | drw x y n => exact OpcodeMap.drw x y n
  | skp x => exact OpcodeMap.skp x
  | sknp x => exact OpcodeMap.sknp x
  | ldFromDT x => exact OpcodeMap.ldFromDT x
  | ldKey x => exact OpcodeMap.ldKey x
  | ldDT x => exact OpcodeMap.ldDT x
  | ldST x => exact OpcodeMap.ldST x
  | addI x => exact OpcodeMap.addI x
  | ldFont x => exact OpcodeMap.ldFont x
  | bcd x => exact OpcodeMap.bcd x
  | store x => exact OpcodeMap.store x
  | load x => exact OpcodeMap.load x

/-! A mask keeps the fields it covers, so the pattern gives their values. -/

section
variable {w pattern : Word}

theorem extractLsb'_of_mask {mask : Word} {start len : Nat} (h : w &&& mask = pattern)
    (hm : mask.extractLsb' start len = BitVec.allOnes len) :
    w.extractLsb' start len = pattern.extractLsb' start len := by
  rw [← h, BitVec.extractLsb'_and, hm, BitVec.and_allOnes]

theorem mask_top (i : Instr) : i.mask.extractLsb' 12 4 = BitVec.allOnes 4 := by
  cases i <;> simp only [Instr.mask] <;> decide

theorem fieldOp_of_mask {i : Instr} (h : w &&& i.mask = pattern) : fieldOp w = fieldOp pattern :=
  congrArg nibble (extractLsb'_of_mask h (mask_top i))

theorem fieldN_of_mask (h : w &&& 0xF00F = pattern) : fieldN w = fieldN pattern :=
  congrArg nibble (extractLsb'_of_mask h (by decide))

theorem fieldNN_of_mask (h : w &&& 0xF0FF = pattern) : fieldNN w = fieldNN pattern :=
  extractLsb'_of_mask h (by decide)

end

/-! The fields of a literal word. -/

theorem fieldOp_ofNat (n : Nat) : fieldOp (BitVec.ofNat 16 n) = Fin.ofNat 16 (n / 4096) := by
  apply Fin.ext
  simp only [fieldOp_val, BitVec.toNat_ofNat, Fin.val_ofNat]
  omega

theorem fieldN_ofNat (n : Nat) : fieldN (BitVec.ofNat 16 n) = Fin.ofNat 16 n := by
  apply Fin.ext
  simp only [fieldN_val, BitVec.toNat_ofNat, Fin.val_ofNat]
  omega

theorem fieldNN_ofNat (n : Nat) : fieldNN (BitVec.ofNat 16 n) = BitVec.ofNat 8 n := by
  apply BitVec.eq_of_toNat_eq
  simp only [fieldNN_toNat, BitVec.toNat_ofNat]
  omega

theorem exists_decode_of_mask {w : Word} {j : Instr} (h : w &&& j.mask = j.pattern) :
    ∃ i, decodeWord w = .ok i ∧ i.pattern = j.pattern := by
  have hop := fieldOp_of_mask h
  cases j with
  | cls | ret =>
    have hw : w = _ := BitVec.and_allOnes.symm.trans h
    subst hw
    exact ⟨_, rfl, rfl⟩
  | jp nnn | call nnn | ldI nnn | jpV0 nnn | seImm x nn | sneImm x nn | ldImm x nn | addImm x nn | rnd x nn
  | drw x y n =>
    simp [decodeWord, hop, Instr.pattern, fieldOp_ofNat, -Fin.ofNat_eq_cast]
  | seReg x y | sneReg x y =>
    have hsel := fieldN_of_mask h
    simp [decodeWord, hop, hsel, Instr.pattern, fieldOp_ofNat, fieldN_ofNat]
  | ldReg x y | orReg x y | andReg x y | xorReg x y | addReg x y | subReg x y | shr x y | subnReg x y | shl x y =>
    have hsel := fieldN_of_mask h
    simp [decodeWord, hop, decode8, hsel, Instr.pattern, fieldOp_ofNat, fieldN_ofNat]
  | skp x | sknp x =>
    have hsel := fieldNN_of_mask h
    simp [decodeWord, hop, decodeE, hsel, Instr.pattern, fieldOp_ofNat, fieldNN_ofNat]
  | ldFromDT x | ldKey x | ldDT x | ldST x | addI x | ldFont x | bcd x | store x | load x =>
    have hsel := fieldNN_of_mask h
    simp [decodeWord, hop, decodeF, hsel, Instr.pattern, fieldOp_ofNat, fieldNN_ofNat]

/-- The mask column of R76 is a function of the match column. -/
def maskOfPattern (p : Word) : Word :=
  if p = 0x00E0 ∨ p = 0x00EE then 0xFFFF
  else if p.toNat / 4096 ∈ [0x5, 0x8, 0x9] then 0xF00F
  else if p.toNat / 4096 ∈ [0xE, 0xF] then 0xF0FF
  else 0xF000

theorem mask_eq_maskOfPattern (i : Instr) : i.mask = maskOfPattern i.pattern := by
  cases i <;> simp [Instr.mask, Instr.pattern, maskOfPattern]

/-- Settles O3: the encoding of what a word decodes to has the fixed bits of the row, and the fixed bits of a row give
the fields the decoder selects by. -/
theorem opcodeMapDecides : Obligations.OpcodeMapDecides := by
  intro w j
  refine ⟨exists_decode_of_mask, ?_⟩
  rintro ⟨i, hi, hrow⟩
  obtain ⟨rfl, hwf⟩ := decodeThenEncode w i hi
  have hmask : i.mask = j.mask := by rw [mask_eq_maskOfPattern, mask_eq_maskOfPattern, hrow]
  rw [← hmask, ← hrow]
  exact Laws.OpcodeMap.all i hwf

/-! ### The illegal words (R77) -/

section
variable {w : Word}

theorem decode8_error_iff :
    (∃ r, decode8 w = .error r) ↔ w.toNat % 16 ∈ [0x8, 0x9, 0xA, 0xB, 0xC, 0xD, 0xF] := by
  rw [← fieldN_val]
  unfold decode8
  generalize fieldN w = sel
  fin_cases sel <;> simp

theorem decodeE_error_iff : (∃ r, decodeE w = .error r) ↔ w.toNat % 256 ∉ [0x9E, 0xA1] := by
  rw [← fieldNN_toNat]
  unfold decodeE
  split <;> simp_all

theorem decodeF_error_iff :
    (∃ r, decodeF w = .error r) ↔
      w.toNat % 256 ∉ [0x07, 0x0A, 0x15, 0x18, 0x1E, 0x29, 0x33, 0x55, 0x65] := by
  rw [← fieldNN_toNat]
  unfold decodeF
  split <;> simp_all

theorem fieldN_eq_zero_iff : fieldN w = 0 ↔ w.toNat % 16 = 0 := by
  rw [← fieldN_val, Fin.val_eq_zero_iff]

theorem fieldOp_eq_iff {k : Fin 16} : fieldOp w = k ↔ w.toNat / 4096 = k.val := by
  rw [← fieldOp_val, Fin.ext_iff]

end

/-- Settles O4: the selector of a family decides, and the families without one hold no illegal word. -/
theorem illegalWordsByFamily : Obligations.IllegalWordsByFamily := by
  intro w
  unfold decodeWord
  split
  case h_1 hop =>
    have hop : w.toNat / 4096 = 0 := fieldOp_eq_iff.mp hop
    split_ifs with hcls hret
    · simp [hcls]
    · simp [hret]
    · exact ⟨fun _ => .inl ⟨hop, hcls, hret⟩, fun _ => ⟨_, rfl⟩⟩
  case h_6 hop =>
    have hop : w.toNat / 4096 = 5 := fieldOp_eq_iff.mp hop
    split_ifs with hsel <;> simp [hop, fieldN_eq_zero_iff.symm, hsel]
  case h_9 hop =>
    have hop : w.toNat / 4096 = 8 := fieldOp_eq_iff.mp hop
    rw [decode8_error_iff]
    simp [hop]
  case h_10 hop =>
    have hop : w.toNat / 4096 = 9 := fieldOp_eq_iff.mp hop
    split_ifs with hsel <;> simp [hop, fieldN_eq_zero_iff.symm, hsel]
  case h_15 hop =>
    have hop : w.toNat / 4096 = 14 := fieldOp_eq_iff.mp hop
    rw [decodeE_error_iff]
    simp [hop]
  case h_16 =>
    -- the one value the fifteen arms before it leave
    have hop : fieldOp w = 0xF := by grind
    have hop : w.toNat / 4096 = 15 := fieldOp_eq_iff.mp hop
    rw [decodeF_error_iff]
    simp [hop]
  case h_2 hop | h_3 hop | h_4 hop | h_5 hop | h_7 hop | h_8 hop | h_11 hop | h_12 hop | h_13 hop | h_14 hop =>
    have hop := fieldOp_eq_iff.mp hop
    simp [hop]

/-- Settles O5, by running the decoder on the seven words. -/
theorem sampleWordsDecode : Obligations.SampleWordsDecode := by
  unfold Obligations.SampleWordsDecode
  decide

end Sys2Proof

/-! PROOFS. The register instructions (spec/42_alu.md R114 to R122), the index register (spec/43_index_memory.md R125
to R127), keypad and timers (spec/45_keypad_timer.md R141 to R146): one or two writes and a move of PC. -/

namespace Sys2Proof.Machine

/-! ### The forms of the statements -/

section
variable {i : Instr} {s : State} {x : Reg} {b f : Byte} {w : Word}

/-- The flag is written last, so with X = 15 it is what remains (R95). -/
theorem exists_next_of_exec_eq_setRegFlag_advance (h : exec i s = .next (s.setRegFlag x b f).advance) :
    ∃ t, exec i s = .next t ∧ t.reg VF = f ∧ (x ≠ VF → t.reg x = b) ∧
      t.pc = s.pc + 2 ∧ s.RegsKeptBut t [x, VF] ∧ s.KeptBut t [.regs] :=
  ⟨_, h, by simp, fun hx => by simp [hx], rfl, s.regsKeptBut_setRegFlag x b f, (s.keptBut_setRegFlag x b f).advance⟩

theorem exists_next_of_exec_eq_setI_advance (h : exec i s = .next (s.setI w).advance) :
    ∃ t, exec i s = .next t ∧ t.i = w ∧ t.pc = s.pc + 2 ∧ s.KeptBut t [.index] :=
  ⟨_, h, rfl, rfl, (s.keptBut_setI w).advance⟩

end

/-! ### Arithmetic and logic -/

/-- Settles O33: each of the three is one write of V[X], and the bits are those of the two sources. -/
theorem logicIsBitwise : Obligations.LogicIsBitwise := by
  intro s x y
  refine ⟨?_, ?_, ?_⟩
  · obtain ⟨t, ht, hx, hrest⟩ := exists_next_of_exec_eq_setReg_advance (exec_eq (.orReg x y) s)
    exact ⟨t, ht, fun k _ => by rw [hx, BitVec.getLsbD_or], hrest⟩
  · obtain ⟨t, ht, hx, hrest⟩ := exists_next_of_exec_eq_setReg_advance (exec_eq (.andReg x y) s)
    exact ⟨t, ht, fun k _ => by rw [hx, BitVec.getLsbD_and], hrest⟩
  · obtain ⟨t, ht, hx, hrest⟩ := exists_next_of_exec_eq_setReg_advance (exec_eq (.xorReg x y) s)
    exact ⟨t, ht, fun k _ => by rw [hx, BitVec.getLsbD_xor], hrest⟩

/-- Settles O34: the flag is the carry of the sum that `trunc_8` reduces. -/
theorem addSetsCarry : Obligations.AddSetsCarry := by
  intro s x y
  obtain ⟨t, ht, hf, hx, hrest⟩ := exists_next_of_exec_eq_setRegFlag_advance (exec_eq (.addReg x y) s)
  exact ⟨t, ht, hf, fun hne => hx hne ▸ toNat_trunc8 _, hrest⟩

/-- `trunc_8(a - b + 256)` is the difference modulo 256 (R118, R120). -/
theorem toNat_trunc8_sub (a b : Byte) :
    ((trunc8 (a.toNat + 256 - b.toNat)).toNat : Int) = ((a.toNat : Int) - b.toNat) % 256 := by
  have hb := b.isLt
  rw [toNat_trunc8]
  omega

/-- Settles O35: the two subtractions differ in which source is the minuend. -/
theorem subtractSetsNoBorrow : Obligations.SubtractSetsNoBorrow := by
  intro s x y
  constructor
  · obtain ⟨t, ht, hf, hx, hrest⟩ := exists_next_of_exec_eq_setRegFlag_advance (exec_eq (.subReg x y) s)
    exact ⟨t, ht, hf, fun hne => hx hne ▸ toNat_trunc8_sub _ _, hrest⟩
  · obtain ⟨t, ht, hf, hx, hrest⟩ := exists_next_of_exec_eq_setRegFlag_advance (exec_eq (.subnReg x y) s)
    exact ⟨t, ht, hf, fun hne => hx hne ▸ toNat_trunc8_sub _ _, hrest⟩

theorem toNat_shrFlag (a : Byte) : (shrFlag a).toNat = a.toNat % 2 := by
  rw [shrFlag, BitVec.toNat_and]
  exact Nat.and_one_is_mod _

/-- The raw masked byte is bit 7 at its place (R121). -/
theorem toNat_shlFlag (a : Byte) : (shlFlag a).toNat = if 128 ≤ a.toNat then 128 else 0 := by
  have ha := a.isLt
  have hbit : a.toNat &&& 2 ^ 7 = (a.toNat.testBit 7).toNat * 2 ^ 7 := Nat.and_two_pow _ 7
  rw [shlFlag, BitVec.toNat_and]
  refine hbit.trans ?_
  rw [Nat.testBit_eq_decide_div_mod_eq]
  by_cases h : 128 ≤ a.toNat
  · have : a.toNat / 128 % 2 = 1 := by omega
    simp [h, this]
  · have : a.toNat / 128 % 2 = 0 := by omega
    simp [h, this]

/-- Settles O36: the flag is the masked source, the result the source moved by one bit. -/
theorem shiftsLeaveTheRawBit : Obligations.ShiftsLeaveTheRawBit := by
  intro s x y
  constructor
  · obtain ⟨t, ht, hf, hx, hrest⟩ := exists_next_of_exec_eq_setRegFlag_advance (exec_eq (.shr x y) s)
    refine ⟨t, ht, hf ▸ toNat_shrFlag _, fun hne => ?_, hrest⟩
    rw [hx hne, BitVec.toNat_ushiftRight, Nat.shiftRight_eq_div_pow, pow_one]
  · obtain ⟨t, ht, hf, hx, hrest⟩ := exists_next_of_exec_eq_setRegFlag_advance (exec_eq (.shl x y) s)
    refine ⟨t, ht, hf ▸ toNat_shlFlag _, fun hne => ?_, hrest⟩
    rw [hx hne, BitVec.toNat_shiftLeft, Nat.shiftLeft_eq, pow_one, Nat.mul_comm]

/-- Settles O37: one write of V[X], and a byte masked twice by opposite masks is 0. -/
theorem randomIsMasked : Obligations.RandomIsMasked := by
  intro s x nn
  obtain ⟨t, ht, hx, hrest⟩ := exists_next_of_exec_eq_setReg_advance (exec_eq (.rnd x nn) s)
  refine ⟨t, ht, hx, ?_, fun k r rest hin => ?_, hrest⟩
  · rw [hx, BitVec.and_assoc, BitVec.and_not_self]
    exact BitVec.and_zero
  · rw [hx, State.rnd, hin]

/-! ### The index register -/

theorem toNat_trunc16 (n : Nat) : (trunc16 n).toNat = n % 65536 := BitVec.toNat_ofNat n 16

/-- The greatest glyph address is 0x54B, so `trunc_16` never takes effect (R127). -/
theorem toNat_trunc16_glyphAddr (b : Byte) : (trunc16 (glyphAddr b)).toNat = 0x050 + 5 * b.toNat := by
  have hb := b.isLt
  rw [toNat_trunc16]
  exact Nat.mod_eq_of_lt (by show 0x050 + 5 * b.toNat < 65536; omega)

/-- Settles O38: each of the three is one write of I. -/
theorem indexRegisterWrites : Obligations.IndexRegisterWrites := by
  intro s x nnn
  refine ⟨?_, ?_, ?_⟩
  · obtain ⟨t, ht, hi, hrest⟩ := exists_next_of_exec_eq_setI_advance (exec_eq (.ldI nnn) s)
    exact ⟨t, ht, hi ▸ toNat_zextAddr nnn, hrest⟩
  · obtain ⟨t, ht, hi, hrest⟩ := exists_next_of_exec_eq_setI_advance (exec_eq (.addI x) s)
    exact ⟨t, ht, hi ▸ toNat_trunc16 _, hrest⟩
  · obtain ⟨t, ht, hi, hrest⟩ := exists_next_of_exec_eq_setI_advance (exec_eq (.ldFont x) s)
    exact ⟨t, ht, hi ▸ toNat_trunc16_glyphAddr _, hrest⟩

/-! ### Keypad and timers -/

/-- `pressed` in the terms of the key (R141). -/
theorem State.pressed_iff {s : State} {b : Byte} : s.pressed b = true ↔ ∃ k, s.key = some k ∧ k.val = b.toNat := by
  unfold pressed
  cases s.key <;> simp

/-- Settles O48: both are one write of PC, by the condition and by its negation. -/
theorem keySkipsAreComplementary : Obligations.KeySkipsAreComplementary := by
  intro s x
  refine ⟨_, _, exec_eq (.skp x) s, exec_eq (.sknp x) s, fun h => ?_, fun h => ?_, s.keptBut_skipIf _ _,
    s.keptBut_skipIf _ _⟩
  · have hp : s.pressed (s.reg x) = true := State.pressed_iff.mpr h
    simp [State.executed, State.faultOf?, State.completed, hp]
  · have hp : s.pressed (s.reg x) = false := Bool.eq_false_iff.mpr fun hp => h (State.pressed_iff.mp hp)
    simp [State.executed, State.faultOf?, State.completed, hp]

theorem toNat_zextKey (k : Key) : (zextKey k).toNat = k.val := by
  have hk := k.isLt
  rw [zextKey, toNat_trunc8]
  omega

/-- Settles O49: the two ways in which the key wait completes. -/
theorem keyWaitHoldsOrStores : Obligations.KeyWaitHoldsOrStores := by
  intro s x
  have hexec : exec (.ldKey x) s = .next (s.completed (.ldKey x)) := exec_of_completes rfl
  refine ⟨fun k hk => ?_, fun hnone => ?_⟩
  · have hstored : s.completed (.ldKey x) = (s.setReg x (zextKey k)).advance := by
      rw [State.completed, hk, Option.elim_some]
    obtain ⟨t, ht, hx, hrest⟩ := exists_next_of_exec_eq_setReg_advance (hstored ▸ hexec)
    exact ⟨t, ht, hx ▸ toNat_zextKey k, hrest⟩
  · rw [hexec, State.completed, hnone, Option.elim_none]

/-- Settles O50: a timer is read into a register or written from one. -/
theorem timerMoves : Obligations.TimerMoves := fun s x =>
  ⟨exists_next_of_exec_eq_setReg_advance (exec_eq (.ldFromDT x) s),
    ⟨_, exec_eq (.ldDT x) s, rfl, rfl, (s.keptBut_setDT _).advance⟩,
    ⟨_, exec_eq (.ldST x) s, rfl, rfl, (s.keptBut_setST _).advance⟩⟩

end Sys2Proof.Machine

/-! PROOFS. Call and return (spec/41_flow.md R100, R102), with the slot convention of spec/10_state.md R25. -/

namespace Sys2Proof.Machine

/-! ### A call with a slot left, a return with a call pending -/

section
variable (s : State) (nnn : Addr12)

theorem State.sp_completed_call (h : s.sp.val < 16) : (s.completed (.call nnn)).sp.val = s.sp.val + 1 :=
  Fin.val_add_one_of_lt h

theorem State.stack_completed_call (k : Fin 16) :
    (s.completed (.call nnn)).stack[k] = if s.sp.val = k.val then s.pc else s.stack[k] := by
  simp [State.completed, Vector.getElem_setIfInBounds]

theorem State.sp_completed_ret (h : 0 < s.sp.val) : (s.completed .ret).sp.val = s.sp.val - 1 :=
  Fin.val_sub_one_of_ne_zero (Fin.pos_iff_ne_zero.mp h)

theorem State.newestCall_eq (k : Fin 16) (hk : k.val + 1 = s.sp.val) : s.newestCall = s.stack[k] := by
  simp [State.newestCall, ← hk]

end

/-! ### The obligations -/

/-- Settles O28: the call site goes to the slot SP counts next. -/
theorem callPushesTheCallSite : Obligations.CallPushesTheCallSite := fun s nnn h =>
  ⟨_, exec_of_completes (State.faultOf?_call_eq_none.mpr h), s.sp_completed_call nnn h,
    (s.stack_completed_call nnn ⟨s.sp.val, h⟩).trans (if_pos rfl),
    fun k hk => (s.stack_completed_call nnn k).trans (if_neg hk.symm), toNat_zextAddr nnn,
    (s.keptBut_withStack _ _).setPC _⟩

/-- Settles O29: the return uncounts the newest slot and leaves it as it is. -/
theorem returnResumesAfterTheCallSite : Obligations.ReturnResumesAfterTheCallSite := fun s h =>
  ⟨_, exec_of_completes (State.faultOf?_ret_eq_none.mpr h), by rw [s.sp_completed_ret h]; omega, rfl,
    fun k hk => congrArg (· + 2) (s.newestCall_eq k hk), (s.keptBut_withStack _ _).setPC _⟩

/-- Settles O30: both faults are found before the first write. -/
theorem stackBoundsHalt : Obligations.StackBoundsHalt := fun s _ =>
  ⟨fun h => ⟨_, exec_of_faults (if_pos (Fin.ext h)), s.haltsWith_takeFault _⟩,
    fun h => ⟨_, exec_of_faults (if_pos (Fin.ext h)), s.haltsWith_takeFault _⟩⟩

/-- Settles O31: the slot the return reads is the one the call wrote. -/
theorem callThenReturn : Obligations.CallThenReturn := by
  intro s t body nnn hsp hcall hstack hdepth
  obtain ⟨t', ht', hspt, hnew, hold, -, -⟩ := callPushesTheCallSite s nnn hsp
  obtain rfl : t' = t := Host.Outcome.next.inj (ht'.symm.trans hcall)
  have hdepth : body.sp.val = s.sp.val + 1 := hdepth ▸ hspt
  obtain ⟨u, hu, hspu, hstacku, hpcu, hkept⟩ := returnResumesAfterTheCallSite body (by omega)
  refine ⟨u, hu, ?_, Fin.ext (by omega), fun k hk => ?_, hkept⟩
  · rw [hpcu ⟨s.sp.val, hsp⟩ hdepth.symm, hstack]
    exact congrArg (· + 2) hnew
  · rw [hstacku, hstack]
    exact hold k hk.ne

end Sys2Proof.Machine

/-! PROOFS. The instructions that access memory at I (spec/43_index_memory.md R128 to R130) and what a later load or
fetch reads of the bytes they wrote (spec/20_memory.md R63). -/

namespace Sys2Proof.Machine

/-! ### The bytes of a block that lies in memory -/

section
variable {s : State} {bs : List Byte} (h : s.dataAddr 0 + bs.length ≤ Config.memSize)
include h

theorem State.byte_storeBlock_inside {k : Nat} (hk : k < bs.length) :
    (s.storeBlock bs).mem.byte (s.dataAddr 0 + k) = bs.getD k 0 := by
  rw [s.byte_storeBlock bs _ h, if_pos ⟨Nat.le_add_right _ _, Nat.add_lt_add_left hk _⟩, Nat.add_sub_cancel_left]

theorem State.byte_storeBlock_outside {a : Nat} (ha : a < s.dataAddr 0 ∨ s.dataAddr 0 + bs.length ≤ a) :
    (s.storeBlock bs).mem.byte a = s.mem.byte a := by
  have hout : ¬ (s.dataAddr 0 ≤ a ∧ a < s.dataAddr 0 + bs.length) := by omega
  rw [s.byte_storeBlock bs _ h, if_neg hout]

end

/-! ### The obligations -/

/-- Settles O39: the block is the list of the three digits. -/
theorem bcdStoresTheDigits : Obligations.BcdStoresTheDigits := by
  intro s x hin
  obtain ⟨hundreds, tens, units, hdigits, hvalue, hle⟩ := decimalDigits_reassemble (s.reg x)
  have hblock : s.dataAddr 0 + (decimalDigits (s.reg x)).length ≤ Config.memSize := by
    show s.i.toNat + 3 ≤ 4096
    omega
  have hnone : s.faultOf? (.bcd x) = none := State.dataFault?_of_in (.inr hin)
  refine ⟨_, exec_of_completes hnone, ?_, rfl, (s.keptBut_storeBlock _).advance⟩
  rintro a rfl
  have hbytes (k : Nat) (hk : k < 3) :
      (s.completed (.bcd x)).mem.byte (s.dataAddr 0 + k) = [hundreds, tens, units].getD k 0 :=
    (State.byte_storeBlock_inside hblock hk).trans (by rw [hdigits])
  have h0 : (s.completed (.bcd x)).mem.byte (s.dataAddr 0) = hundreds := hbytes 0 (by decide)
  have h1 : (s.completed (.bcd x)).mem.byte (s.dataAddr 0 + 1) = tens := hbytes 1 (by decide)
  have h2 : (s.completed (.bcd x)).mem.byte (s.dataAddr 0 + 2) = units := hbytes 2 (by decide)
  obtain ⟨hh, ht, hu⟩ := hle
  rw [h0, h1, h2]
  exact ⟨hvalue, hh, ht, hu, fun b hb => State.byte_storeBlock_outside hblock hb⟩

/-- Settles O40: the block is the list of the registers. -/
theorem blockStoreCopiesRegisters : Obligations.BlockStoreCopiesRegisters := by
  intro s x hin
  have hx := x.isLt
  have hlen : (s.regs (x.val + 1)).length = x.val + 1 := s.regs_length _ (by omega)
  have hblock : s.dataAddr 0 + (s.regs (x.val + 1)).length ≤ Config.memSize := by
    rw [hlen]
    show s.i.toNat + (x.val + 1) ≤ 4096
    omega
  have hnone : s.faultOf? (.store x) = none := State.dataFault?_of_in (.inr hin)
  refine ⟨_, exec_of_completes hnone, ?_, rfl, (s.keptBut_storeBlock _).advance⟩
  rintro a rfl
  refine ⟨fun k hk => ?_, fun b hb => State.byte_storeBlock_outside hblock (by omega)⟩
  have hk : k.val < x.val + 1 := Nat.lt_succ_of_le hk
  exact (State.byte_storeBlock_inside hblock (by rw [hlen]; exact hk)).trans (s.regs_getD _ _ hk (by omega))

/-- Settles O41: the registers of the block, then I. -/
theorem blockLoadCopiesMemory : Obligations.BlockLoadCopiesMemory := by
  intro s x hin
  have hnone : s.faultOf? (.load x) = none := State.dataFault?_of_in (.inr hin)
  refine ⟨_, exec_of_completes hnone, fun k hk => ?_, fun k hk => ?_, ?_, rfl,
    ((s.keptBut_loadBlock _).append (State.keptBut_setI _ _)).advance⟩
  · exact (s.reg_loadBlock _ k).trans (if_pos (Nat.lt_succ_of_le hk))
  · exact (s.reg_loadBlock _ k).trans (if_neg (Nat.not_lt.mpr hk))
  · exact (toNat_trunc16 _).trans (Nat.mod_eq_of_lt (by show s.i.toNat + (x.val + 1) < 65536; omega))

/-- Settles O42: the load reads the bytes the store wrote, at the I both share. -/
theorem storeThenLoadRoundTrip : Obligations.StoreThenLoadRoundTrip := by
  intro s t later x hin hstore hmem hi
  obtain ⟨t', ht', hbytes, -, hkept⟩ := blockStoreCopiesRegisters s x hin
  obtain rfl : t' = t := Host.Outcome.next.inj (ht'.symm.trans hstore)
  have hi : later.i = s.i := hi.trans (hkept .index (by decide))
  obtain ⟨u, hu, hloaded, -, hiu, -⟩ := blockLoadCopiesMemory later x (by rw [hi]; exact hin)
  refine ⟨u, hu, fun k hk => ?_, by rw [hiu, hi]⟩
  rw [hloaded k hk, hmem, hi]
  exact (hbytes _ rfl).1 k hk

/-- Settles O43: each of the four checks the range of its block before it accesses a byte. -/
theorem dataBeyondMemoryHalts : Obligations.DataBeyondMemoryHalts := by
  intro s x y n
  refine ⟨fun h => ⟨_, exec_of_faults (State.dataFault?_of_out (by decide) h), s.haltsWith_takeFault _⟩,
    fun h => ⟨⟨_, exec_of_faults (State.dataFault?_of_out (Nat.le_add_left 1 _) h), s.haltsWith_takeFault _⟩,
      ⟨_, exec_of_faults (State.dataFault?_of_out (Nat.le_add_left 1 _) h), s.haltsWith_takeFault _⟩⟩,
    fun hn _ h => ?_⟩
  have haddr : s.i.toNat + n - 1 = s.dataAddr (n - 1) := Nat.add_sub_assoc hn _
  rw [haddr] at h ⊢
  exact ⟨_, exec_of_faults (State.dataFault?_of_out hn h), s.haltsWith_takeFault _⟩

/-- Settles O44: the fetch reads two neighbouring bytes of the block. -/
theorem storedBytesAreFetched : Obligations.StoredBytesAreFetched := by
  intro s t x k next hin hstore h hnext
  obtain ⟨t', ht', hbytes, -, -⟩ := blockStoreCopiesRegisters s x hin
  obtain rfl : t' = t := Host.Outcome.next.inj (ht'.symm.trans hstore)
  obtain ⟨hinside, -⟩ := hbytes _ rfl
  have hhigh := hinside k (Nat.le_of_succ_le h)
  have hlow := hinside ⟨k.val + 1, by omega⟩ h
  have hpc : next.toNat ≤ 4094 := by omega
  rw [State.fetch?_of_in (s := t'.setPC next) hpc, State.pc_setPC, State.mem_setPC, hnext]
  exact congrArg some (congrArg₂ (· ++ ·) hhigh hlow)

end Sys2Proof.Machine

/-! PROOFS. The display instructions (spec/44_display.md R135, R137, R138): a sprite lands on distinct cells, so a
draw flips each cell it covers once. -/

namespace Sys2Proof.Machine

/-! ### The cells a draw flips are those the sprite covers -/

section
variable {s : State} {x y : Reg} {n : Nat} {c : Cell}

theorem State.covers_iff_mem :
    s.Covers x y n c ↔ c ∈ spriteCells s.mem (s.dataAddr 0) n (s.reg x).toNat (s.reg y).toNat :=
  mem_spriteCells.symm

theorem State.cell_drawn_of_covers (hn : n < 16) (h : s.Covers x y n c) :
    (s.drawn x y n).1.cell c = s.fb.cell c ^^^ 255 :=
  (Frame.cell_flipAll (spriteCells_nodup _ _ _ _ _ (by omega)) s.fb c).trans (if_pos (covers_iff_mem.mp h))

theorem State.cell_drawn_of_not_covers (hn : n < 16) (h : ¬ s.Covers x y n c) :
    (s.drawn x y n).1.cell c = s.fb.cell c :=
  (Frame.cell_flipAll (spriteCells_nodup _ _ _ _ _ (by omega)) s.fb c).trans
    (if_neg fun hm => h (covers_iff_mem.mpr hm))

theorem State.drawn_collides_iff (hn : n < 16) :
    (s.drawn x y n).2 = true ↔ ∃ c, s.Covers x y n c ∧ s.fb.cell c = 255 := by
  simp only [covers_iff_mem]
  exact Frame.flipAll_hit (spriteCells_nodup _ _ _ _ _ (by omega)) s.fb

/-- What a sprite covers depends on memory, I and the two coordinate registers alone. -/
theorem State.covers_congr {t : State} (hmem : ∀ a, t.mem.byte a = s.mem.byte a) (hi : t.i = s.i)
    (hx : t.reg x = s.reg x) (hy : t.reg y = s.reg y) : t.Covers x y n c ↔ s.Covers x y n c := by
  simp only [Covers, hmem, hi, hx, hy]

theorem State.faultOf?_drw_eq_none (h : n = 0 ∨ s.i.toNat + n - 1 ≤ 4095) : s.faultOf? (.drw x y n) = none := by
  have h : n = 0 ∨ s.i.toNat + (n - 1) ≤ 4095 := by omega
  exact dataFault?_of_in h

end

/-! ### The obligations -/

/-- Settles O45: one write of the whole display, then the presentation. -/
theorem clearPresentsAnEmptyFrame : Obligations.ClearPresentsAnEmptyFrame := fun s =>
  ⟨_, exec_eq .cls s, Frame.cell_clear, rfl, rfl, ((s.keptBut_setFB _).append (State.keptBut_emit _ _)).advance⟩

/-- Settles O46: the flips of the covered cells, the collision of the flips, then the presentation. -/
theorem drawXorsTheSprite : Obligations.DrawXorsTheSprite := by
  intro s x y n hn hin
  have hvf : (s.completed (.drw x y n)).reg VF = collisionFlag (s.drawn x y n).2 := by simp [State.completed]
  refine ⟨_, exec_of_completes (State.faultOf?_drw_eq_none hin), fun c => State.cell_drawn_of_covers hn,
    fun c => State.cell_drawn_of_not_covers hn, fun h => ?_, fun h => ?_, rfl, rfl,
    s.regsKeptBut_completed (.drw x y n),
    (((s.keptBut_setFB _).append (State.keptBut_setReg _ _ _)).append
      (State.keptBut_emit _ _)).advance.mono (by simp)⟩
  · rw [hvf, (State.drawn_collides_iff hn).mpr h]
    rfl
  · rw [hvf, Bool.eq_false_iff.mpr fun hc => h ((State.drawn_collides_iff hn).mp hc)]
    rfl

/-- Settles O47: the second draw covers the same cells, and flips each of them back. -/
theorem drawTwiceRestoresTheBuffer : Obligations.DrawTwiceRestoresTheBuffer := by
  intro s t u x y n hn hin hx hy hfirst hsecond
  obtain ⟨t', ht', hflip, hsame, -, -, -, -, hregs, hkept⟩ := drawXorsTheSprite s x y n hn hin
  obtain rfl : t' = t := Host.Outcome.next.inj (ht'.symm.trans hfirst)
  have hi : t'.i = s.i := hkept .index (by decide)
  obtain ⟨u', hu', hflip', hsame', hhit, hmiss, -⟩ := drawXorsTheSprite t' x y n hn (hi ▸ hin)
  obtain rfl : u' = u := Host.Outcome.next.inj (hu'.symm.trans hsecond)
  have hcovers (c : Cell) : t'.Covers x y n c ↔ s.Covers x y n c :=
    State.covers_congr (hkept .memory (by decide)) hi (hregs x (by simpa using hx)) (hregs y (by simpa using hy))
  have hback (b : Byte) : b ^^^ 255 ^^^ 255 = b := by rw [BitVec.xor_assoc, BitVec.xor_self, BitVec.xor_zero]
  have hset (c : Cell) (hc : s.Covers x y n c) : t'.fb.cell c = 255 ↔ s.fb.cell c = 0 := by
    rw [hflip c hc]
    simp
  have hcollides : (∃ c, t'.Covers x y n c ∧ t'.fb.cell c = 255) ↔ ∃ c, s.Covers x y n c ∧ s.fb.cell c = 0 :=
    exists_congr fun c => (and_congr_left' (hcovers c)).trans (and_congr_right (hset c))
  refine ⟨Frame.ext_cell fun c => ?_, fun h => hhit (hcollides.mpr h), fun h => hmiss fun hc => h (hcollides.mp hc)⟩
  by_cases hc : s.Covers x y n c
  · rw [hflip' c ((hcovers c).mpr hc), hflip c hc, hback]
  · rw [hsame' c fun h => hc ((hcovers c).mp h), hsame c hc]

end Sys2Proof.Machine
